-- ==== Sys2Proof/Word.lean ====
section
/-! DEFINITION. The value types of the CHIP-8 core: bytes, 16-bit words, and the operand fields of an
instruction word (spec/00_scope.md R9, R11; spec/30_encoding.md R92). All values are unsigned. -/

namespace Sys2Proof

/-- An 8-bit value: a general register, a timer, a byte of memory, the field `kk` (R9). -/
abbrev Byte := BitVec 8

/-- A 16-bit value: `pc`, `I`, a stack entry, an instruction word (R9, R90). -/
abbrev Word := BitVec 16

/-- A 4-bit value: the fields `x`, `y`, `n`, a register number, a key index (R92, R220). -/
abbrev Nibble := BitVec 4

/-- The 12-bit address field `nnn` (R92). -/
abbrev Addr12 := BitVec 12

end Sys2Proof
end

