-- ==== Sys2Proof/Syntax.lean ====
section
/-! DEFINITION. The instructions: one constructor per row of spec/opcode_table.json (spec/30_encoding.md R96),
with the operand fields of R92 and R93. -/

namespace Sys2Proof

/-- The 34 instructions. Each docstring gives the pattern of R96 and the rule of its meaning. -/
inductive Instr where
  /-- `00E0`, clear the display (R200). -/
  | cls
  /-- `00EE`, return from subroutine (R131). -/
  | ret
  /-- `1nnn`, jump (R130). -/
  | jp (nnn : Addr12)
  /-- `2nnn`, subroutine call (R133). -/
  | call (nnn : Addr12)
  /-- `3xkk`, skip if Vx = kk (R135). -/
  | seImm (x : Nibble) (kk : Byte)
  /-- `4xkk`, skip if Vx differs from kk (R136). -/
  | sneImm (x : Nibble) (kk : Byte)
  /-- `5xy0`, skip if Vx = Vy (R137). -/
  | seReg (x y : Nibble)
  /-- `6xkk`, load an immediate (R153). -/
  | ldImm (x : Nibble) (kk : Byte)
  /-- `7xkk`, add an immediate, no flag (R154). -/
  | addImm (x : Nibble) (kk : Byte)
  /-- `8xy0`, copy a register (R155). -/
  | ldReg (x y : Nibble)
  /-- `8xy1`, OR, VF cleared (R157). -/
  | orReg (x y : Nibble)
  /-- `8xy2`, AND, VF cleared (R158). -/
  | andReg (x y : Nibble)
  /-- `8xy3`, XOR, VF cleared (R159). -/
  | xorReg (x y : Nibble)
  /-- `8xy4`, add with carry (R160). -/
  | addReg (x y : Nibble)
  /-- `8xy5`, Vx minus Vy with no-borrow (R161). -/
  | subReg (x y : Nibble)
  /-- `8xy6`, shift Vy right into Vx (R162). -/
  | shrReg (x y : Nibble)
  /-- `8xy7`, Vy minus Vx with no-borrow (R163). -/
  | subnReg (x y : Nibble)
  /-- `8xyE`, shift Vy left into Vx (R164). -/
  | shlReg (x y : Nibble)
  /-- `9xy0`, skip if Vx differs from Vy (R138). -/
  | sneReg (x y : Nibble)
  /-- `Annn`, load I (R185). -/
  | ldI (nnn : Addr12)
  /-- `Bnnn`, jump to nnn + V0 (R140). -/
  | jpV0 (nnn : Addr12)
  /-- `Cxkk`, random byte AND kk (R166). -/
  | rnd (x : Nibble) (kk : Byte)
  /-- `Dxyn`, draw a sprite of n rows (R205). -/
  | drw (x y n : Nibble)
  /-- `Ex9E`, skip if the key is pressed (R225). -/
  | skp (x : Nibble)
  /-- `ExA1`, skip if the key is not pressed (R226). -/
  | sknp (x : Nibble)
  /-- `Fx07`, read the delay timer (R230). -/
  | ldVxDt (x : Nibble)
  /-- `Fx0A`, wait for a key press and release (R232). -/
  | ldVxK (x : Nibble)
  /-- `Fx15`, set the delay timer (R235). -/
  | ldDtVx (x : Nibble)
  /-- `Fx18`, set the sound timer (R236). -/
  | ldStVx (x : Nibble)
  /-- `Fx1E`, add Vx to I (R186). -/
  | addI (x : Nibble)
  /-- `Fx29`, point I at a font glyph (R187). -/
  | ldF (x : Nibble)
  /-- `Fx33`, store decimal digits (R188). -/
  | ldB (x : Nibble)
  /-- `Fx55`, store V0..Vx (R190). -/
  | stRegs (x : Nibble)
  /-- `Fx65`, load V0..Vx (R191). -/
  | ldRegs (x : Nibble)
deriving DecidableEq, Repr

end Sys2Proof
end

