-- ==== Sys2Proof/WellFormed.lean ====
section
/-! DEFINITION. Which instructions, words and ROMs are well-formed. An instruction's operand fields have exactly
the widths of spec/30_encoding.md R92, so every term of `Instr` is well-formed; what can be ill-formed is a word
(R97) and a ROM image (spec/20_memory.md R76). -/

namespace Sys2Proof

/-- Every operand of every instruction has the width of its field, so no further check is left (R92, R93, R94):
x and y name any of the sixteen registers (spec/10_state.md R22), kk, n and nnn take every value of their field. -/
def Instr.wellFormed : Instr → Bool
  | .cls => true
  | .ret => true
  | .jp _ => true
  | .call _ => true
  | .seImm _ _ => true
  | .sneImm _ _ => true
  | .seReg _ _ => true
  | .ldImm _ _ => true
  | .addImm _ _ => true
  | .ldReg _ _ => true
  | .orReg _ _ => true
  | .andReg _ _ => true
  | .xorReg _ _ => true
  | .addReg _ _ => true
  | .subReg _ _ => true
  | .shrReg _ _ => true
  | .subnReg _ _ => true
  | .shlReg _ _ => true
  | .sneReg _ _ => true
  | .ldI _ => true
  | .jpV0 _ => true
  | .rnd _ _ => true
  | .drw _ _ _ => true
  | .skp _ => true
  | .sknp _ => true
  | .ldVxDt _ => true
  | .ldVxK _ => true
  | .ldDtVx _ => true
  | .ldStVx _ => true
  | .addI _ => true
  | .ldF _ => true
  | .ldB _ => true
  | .stRegs _ => true
  | .ldRegs _ => true

/-- Whether a word is illegal, by the family lists of R97 (written from that rule, apart from the decoder).
The low nibble of families 0x5 and 0x9 is D11's choice: log entry 12. -/
def illegalWord (w : Word) : Bool :=
  let family := w.extractLsb' 12 4
  let n := w.extractLsb' 0 4
  let kk := w.extractLsb' 0 8
  (family == 0x0 && !(w == 0x00E0 || w == 0x00EE))
    || (family == 0x5 && n != 0)
    || (family == 0x8 && ([0x8, 0x9, 0xA, 0xB, 0xC, 0xD, 0xF] : List Nibble).contains n)
    || (family == 0x9 && n != 0)
    || (family == 0xE && !(([0x9E, 0xA1] : List Byte).contains kk))
    || (family == 0xF && !(([0x07, 0x0A, 0x15, 0x18, 0x1E, 0x29, 0x33, 0x55, 0x65] : List Byte).contains kk))

/-- A word is well-formed when it is one of the 34 instructions (R97, R98). -/
def legalWord (w : Word) : Bool := !illegalWord w

/-- A ROM image is well-formed when it fits the program region: at most 4096 - 0x200 = 3584 bytes (R76). -/
def romFits (rom : List Byte) : Bool := decide (rom.length ≤ 3584)

end Sys2Proof
end

