-- ==== Sys2Proof/Decode.lean ====
section
/-! DEFINITION. The decoder, total on any word and on any bytes, and the encoder, both written from the opcode
map of spec/30_encoding.md R92, R93, R95, R96, R97. Decoding reads no state (R101). -/

namespace Sys2Proof

/-- The instruction a word decodes to, or none for an illegal word (R95, R96, R97). The high nibble selects the
family; families 0x5, 0x8 and 0x9 look at n, families 0xE and 0xF at kk, family 0x0 at the whole word.
For 5xyN and 9xyN with N not 0 see log entry 12. -/
def decodeWord (w : Word) : Option Instr :=
  let x := w.extractLsb' 8 4
  let y := w.extractLsb' 4 4
  let n := w.extractLsb' 0 4
  let kk := w.extractLsb' 0 8
  let nnn := w.extractLsb' 0 12
  match (w.extractLsb' 12 4).toNat with
  | 0x0 => if w = 0x00E0 then some .cls else if w = 0x00EE then some .ret else none
  | 0x1 => some (.jp nnn)
  | 0x2 => some (.call nnn)
  | 0x3 => some (.seImm x kk)
  | 0x4 => some (.sneImm x kk)
  | 0x5 => if n = 0 then some (.seReg x y) else none
  | 0x6 => some (.ldImm x kk)
  | 0x7 => some (.addImm x kk)
  | 0x8 =>
    match n.toNat with
    | 0x0 => some (.ldReg x y)
    | 0x1 => some (.orReg x y)
    | 0x2 => some (.andReg x y)
    | 0x3 => some (.xorReg x y)
    | 0x4 => some (.addReg x y)
    | 0x5 => some (.subReg x y)
    | 0x6 => some (.shrReg x y)
    | 0x7 => some (.subnReg x y)
    | 0xE => some (.shlReg x y)
    | _ => none
  | 0x9 => if n = 0 then some (.sneReg x y) else none
  | 0xA => some (.ldI nnn)
  | 0xB => some (.jpV0 nnn)
  | 0xC => some (.rnd x kk)
  | 0xD => some (.drw x y n)
  | 0xE => if kk = 0x9E then some (.skp x) else if kk = 0xA1 then some (.sknp x) else none
  | 0xF =>
    match kk.toNat with
    | 0x07 => some (.ldVxDt x)
    | 0x0A => some (.ldVxK x)
    | 0x15 => some (.ldDtVx x)
    | 0x18 => some (.ldStVx x)
    | 0x1E => some (.addI x)
    | 0x29 => some (.ldF x)
    | 0x33 => some (.ldB x)
    | 0x55 => some (.stRegs x)
    | 0x65 => some (.ldRegs x)
    | _ => none
  | _ => none

/-- Why a sequence of bytes is not an instruction. -/
inductive DecodeReject where
  /-- The word matches no row of the opcode map (R97). -/
  | unknownOpcode (w : Word)
  /-- Fewer than two bytes are left (every instruction is exactly one word, R90). -/
  | truncated
deriving DecidableEq, Repr

/-- The word made of two bytes in the order of their addresses: big-endian (R65, R90). -/
def wordOfBytes (hi lo : Byte) : Word := hi ++ lo

/-- Decode the first instruction of a byte sequence and answer the bytes after it (R65, R90). -/
def decodeBytes : List Byte → Except DecodeReject (Instr × List Byte)
  | hi :: lo :: rest =>
    match decodeWord (wordOfBytes hi lo) with
    | some i => .ok (i, rest)
    | none => .error (.unknownOpcode (wordOfBytes hi lo))
  | [_] => .error .truncated
  | [] => .error .truncated

/-- The word of an instruction, from the layouts of R93 and the patterns of R96. -/
def encode : Instr → Word
  | .cls => 0x00E0#16
  | .ret => 0x00EE#16
  | .jp nnn => 0x1#4 ++ nnn
  | .call nnn => 0x2#4 ++ nnn
  | .seImm x kk => 0x3#4 ++ x ++ kk
  | .sneImm x kk => 0x4#4 ++ x ++ kk
  | .seReg x y => 0x5#4 ++ x ++ y ++ 0x0#4
  | .ldImm x kk => 0x6#4 ++ x ++ kk
  | .addImm x kk => 0x7#4 ++ x ++ kk
  | .ldReg x y => 0x8#4 ++ x ++ y ++ 0x0#4
  | .orReg x y => 0x8#4 ++ x ++ y ++ 0x1#4
  | .andReg x y => 0x8#4 ++ x ++ y ++ 0x2#4
  | .xorReg x y => 0x8#4 ++ x ++ y ++ 0x3#4
  | .addReg x y => 0x8#4 ++ x ++ y ++ 0x4#4
  | .subReg x y => 0x8#4 ++ x ++ y ++ 0x5#4
  | .shrReg x y => 0x8#4 ++ x ++ y ++ 0x6#4
  | .subnReg x y => 0x8#4 ++ x ++ y ++ 0x7#4
  | .shlReg x y => 0x8#4 ++ x ++ y ++ 0xE#4
  | .sneReg x y => 0x9#4 ++ x ++ y ++ 0x0#4
  | .ldI nnn => 0xA#4 ++ nnn
  | .jpV0 nnn => 0xB#4 ++ nnn
  | .rnd x kk => 0xC#4 ++ x ++ kk
  | .drw x y n => 0xD#4 ++ x ++ y ++ n
  | .skp x => 0xE#4 ++ x ++ 0x9E#8
  | .sknp x => 0xE#4 ++ x ++ 0xA1#8
  | .ldVxDt x => 0xF#4 ++ x ++ 0x07#8
  | .ldVxK x => 0xF#4 ++ x ++ 0x0A#8
  | .ldDtVx x => 0xF#4 ++ x ++ 0x15#8
  | .ldStVx x => 0xF#4 ++ x ++ 0x18#8
  | .addI x => 0xF#4 ++ x ++ 0x1E#8
  | .ldF x => 0xF#4 ++ x ++ 0x29#8
  | .ldB x => 0xF#4 ++ x ++ 0x33#8
  | .stRegs x => 0xF#4 ++ x ++ 0x55#8
  | .ldRegs x => 0xF#4 ++ x ++ 0x65#8

/-- The two bytes of an instruction in the order of their addresses (R65). -/
def encodeBytes (i : Instr) : List Byte :=
  [(encode i).extractLsb' 8 8, (encode i).extractLsb' 0 8]

/-- The opcode map of R96 as (match, mask), one row per instruction: `w` decodes to a row when
`w AND mask = match`. It is a second reading of the encodings, apart from `decodeWord` and `encode`. -/
def opcodeRow : Instr → Word × Word
  | .cls => (0x00E0, 0xFFFF)
  | .ret => (0x00EE, 0xFFFF)
  | .jp _ => (0x1000, 0xF000)
  | .call _ => (0x2000, 0xF000)
  | .seImm _ _ => (0x3000, 0xF000)
  | .sneImm _ _ => (0x4000, 0xF000)
  | .seReg _ _ => (0x5000, 0xF00F)
  | .ldImm _ _ => (0x6000, 0xF000)
  | .addImm _ _ => (0x7000, 0xF000)
  | .ldReg _ _ => (0x8000, 0xF00F)
  | .orReg _ _ => (0x8001, 0xF00F)
  | .andReg _ _ => (0x8002, 0xF00F)
  | .xorReg _ _ => (0x8003, 0xF00F)
  | .addReg _ _ => (0x8004, 0xF00F)
  | .subReg _ _ => (0x8005, 0xF00F)
  | .shrReg _ _ => (0x8006, 0xF00F)
  | .subnReg _ _ => (0x8007, 0xF00F)
  | .shlReg _ _ => (0x800E, 0xF00F)
  | .sneReg _ _ => (0x9000, 0xF00F)
  | .ldI _ => (0xA000, 0xF000)
  | .jpV0 _ => (0xB000, 0xF000)
  | .rnd _ _ => (0xC000, 0xF000)
  | .drw _ _ _ => (0xD000, 0xF000)
  | .skp _ => (0xE09E, 0xF0FF)
  | .sknp _ => (0xE0A1, 0xF0FF)
  | .ldVxDt _ => (0xF007, 0xF0FF)
  | .ldVxK _ => (0xF00A, 0xF0FF)
  | .ldDtVx _ => (0xF015, 0xF0FF)
  | .ldStVx _ => (0xF018, 0xF0FF)
  | .addI _ => (0xF01E, 0xF0FF)
  | .ldF _ => (0xF029, 0xF0FF)
  | .ldB _ => (0xF033, 0xF0FF)
  | .stRegs _ => (0xF055, 0xF0FF)
  | .ldRegs _ => (0xF065, 0xF0FF)

/-- The bytes of an instruction numbered as spec/opcode_table.json numbers its bits: the low `nbits` bits of `w`
are the word, every bit above them is 0, and the high byte stands at the lower address (R65, R90). -/
def tableBytes (nbits w : Nat) : Byte × Byte :=
  let u := w % 2 ^ nbits
  (BitVec.ofNat 8 (u / 256), BitVec.ofNat 8 u)

/-- What the decoder reads from an instruction whose bits are `w`, numbered as the opcode table numbers them. -/
def decodeTableWord (nbits w : Nat) : Option Instr :=
  match decodeBytes [(tableBytes nbits w).1, (tableBytes nbits w).2] with
  | .ok (i, _) => some i
  | .error _ => none

end Sys2Proof
end

