-- ==== Sys2Proof/Config.lean ====
section
/-! DEFINITION. What the spec leaves open (spec/00_scope.md R10; spec/92_eei_decisions.md): the type of the
font table FONT, the choice FONT_WRITE, the free random byte RAND, and the scheduler's parameters. -/

namespace Sys2Proof.Config

/-- The type of the parameter FONT: 80 bytes, glyph `g` at bytes `5g .. 5g+4` (R75, D7).
Its value is the field `font` of State, so that a statement about every state is about every FONT.
DESIGN CHOICE, safe: log entry 6. -/
abbrev Font := Vector Byte 80

/-- The parameter FONT_WRITE: what Fx33 or Fx55 does when it writes an address in 0x000-0x04F (R69, D8).
Its value is the field `fontWrite` of State. DESIGN CHOICE, safe: log entry 7. -/
inductive FontWrite where
  /-- The byte is written like any other. -/
  | store
  /-- The model has no meaning for the transaction (R123). The spec's default. -/
  | refuse
deriving DecidableEq, Repr

/-- RAND: the random byte of the n-th executed Cxkk, a free value under no law (R167, D21).
It has no body, so a statement about it holds for every sequence of bytes. Safe: log entry 5. -/
opaque rand : Nat → Byte

/-- TICK_ORDER: where the tick stands among the cycles of a frame (R291, D18). -/
inductive TickOrder where
  | beforeCycles
  | afterCycles
deriving DecidableEq, Repr

/-- What the scheduler does when a fatal error is latched: R252 leaves it to the scheduler to halt or to reset the
machine. DESIGN CHOICE: the model has both, as a parameter; safe for claims over `step`, unsafe for a claim over
`runFrames` taken for every scheduler (log entry 28). -/
inductive OnError where
  /-- No further transaction is issued. -/
  | halt
  /-- A reset is issued, and then a load of the ROM, which the reset erased (R282). -/
  | reset (rom : List Byte)
deriving DecidableEq, Repr

/-- What the host issues in the cycles' part of a frame: it may set a key between any two cycles (R292). -/
inductive FrameEvent where
  | cycle
  | setKey (k : Nibble) (pressed : Bool)
deriving DecidableEq, Repr

/-- The scheduler's parameters, which lie outside the block (R291, D18; log entry 20). -/
structure Scheduler where
  /-- CYCLES_PER_TICK, the bound on the cycles of one tick. -/
  cyclesPerTick : Nat
  /-- The bound is positive (D18). -/
  cyclesPerTick_pos : 0 < cyclesPerTick
  /-- TICK_ORDER. -/
  tickOrder : TickOrder
  /-- CATCHUP_MAX, the bound on catch-up ticks (recommended at most 2). -/
  catchupMax : Nat
  /-- STOP_ON_DRAW: whether a frame's cycles stop after a draw. -/
  stopOnDraw : Bool
  /-- The answer to a fatal error. -/
  onError : OnError
deriving DecidableEq, Repr

end Sys2Proof.Config
end

