-- ==== Sys2Proof/Machine/State.lean ====
section
/-! DEFINITION. The machine's state (spec/10_state.md R20), its five fatal errors (spec/60_exceptions.md R250), the
host's transactions (spec/70_reset_and_hazards.md R290), the faults and refusals a step can end in, and the state
after reset (R46, R280). -/

namespace Sys2Proof.Machine

/-- The five fatal errors, with the information each records (R250; the payloads are D10's choice, log entry 10). -/
inductive Error where
  /-- Code 1: a call with SP = 16. -/
  | stackOverflow
  /-- Code 2: a return with SP = 0. -/
  | stackUnderflow
  /-- Code 3: a word that matches no instruction. -/
  | unknownOpcode (w : Word)
  /-- Code 4: an access above 4095, with the first such address. -/
  | addressOutOfRange (addr : Nat)
  /-- Code 5: a ROM of more than 3584 bytes, with its length. -/
  | romTooLarge (length : Nat)
deriving DecidableEq, Repr

/-- The key-wait state (R39, names by C3). -/
inductive KeyWait where
  /-- No key wait in progress. -/
  | running
  /-- Fx0A has started and has seen no key. -/
  | awaitingKeyPress
  /-- Fx0A has seen key `k` pressed and waits for its release. -/
  | awaitingKeyRelease (k : Nibble)
deriving DecidableEq, Repr

/-- The host's transactions (R290). A key index is 4 bits wide (R220, D17; log entry 17). -/
inductive Transaction where
  | cycle
  | tickTimers
  | setKey (k : Nibble) (pressed : Bool)
  | load (rom : List Byte)
  | reset
  | setPixel (px py : Nat) (on : Bool)
deriving DecidableEq, Repr

/-- Why the machine stops. -/
inductive Fault where
  /-- Raised by `perform` (so by `step`) for every transaction but reset on a machine whose `halted` holds the
  error `e`: such a transaction has no step (R254, D20). Safe: log entry 2. -/
  | halted (e : Error)
deriving DecidableEq, Repr

/-- Why the model has no meaning. -/
inductive Refusal where
  /-- Raised by `exec` alone, in the arm of an instruction that has no meaning yet. Safe. -/
  | notModelled (mnemonic : String)
  /-- Raised by `memWrite`, for Fx33 and Fx55: a write to the font address `addr` under FONT_WRITE = Refuse
  (R69, R123, D8). Safe: log entry 7. -/
  | fontWrite (addr : Nat)
deriving DecidableEq, Repr

/-- The written cells of memory in canonical form (`Memory.wf`): addresses strictly rising and below 4096, no cell
equal to what an unlisted address reads as (log entry 9). -/
abbrev Memory := List Host.Cell

/-- The display: 32 rows of 64 pixels, `true` on; `pix[px][py]` of R42 is column px of row py (log entry 27). -/
abbrev Grid := Vector (Vector Bool 64) 32

/-- The state: the components of R20, in its order, and then the model's own fields. -/
structure State where
  /-- `V[0..15]`, VF being V[15] (R21, R23). -/
  v : Vector Byte 16
  /-- The index register `I` (R30). -/
  i : Word
  /-- The program counter (R25). -/
  pc : Word
  /-- The 16 return addresses (R33). -/
  stack : Vector Word 16
  /-- SP, the number of valid stack entries, 0..16 (R33, R34; log entry 26). -/
  sp : Fin 17
  /-- The delay timer (R36). -/
  dt : Byte
  /-- The sound timer (R36). -/
  st : Byte
  /-- The key-wait state (R39). -/
  wait : KeyWait
  /-- The draw lock VblankBlocked (R40). -/
  vblank : Bool
  /-- `mem[0..4095]` (R60). -/
  mem : Memory
  /-- The display (R42). -/
  pix : Grid
  /-- The key slots, `true` pressed (R43). -/
  key : Vector Bool 16
  /-- The fault latch (R44). -/
  halted : Option Error
  /-- The model's own: the parameter FONT (R10, R75), which no step changes (log entry 6). -/
  font : Config.Font
  /-- The model's own: the parameter FONT_WRITE (R10, R69), which no step changes (log entry 7). -/
  fontWrite : Config.FontWrite
  /-- The model's own: how many random bytes have been drawn, the index of the next (R167; log entry 5). -/
  draws : Nat
  /-- The model's own: the draw signal of the last cycle (R110, R117; log entry 4). -/
  drew : Bool
  /-- The model's own: the transactions the host has decided on, the first first; when it is empty the next
  transaction is a cycle (R290, R291; log entry 3). -/
  schedule : List Transaction
deriving DecidableEq, Repr

/-- The state R46 gives after reset, for a value of each of the model's own fields (R280). The zeros are the spec's
choices D2 to D6 (log entry 8). -/
def State.fresh (font : Config.Font) (fontWrite : Config.FontWrite) (draws : Nat) (schedule : List Transaction) :
    State where
  v := Vector.replicate 16 0
  i := 0
  pc := 0x200
  stack := Vector.replicate 16 0
  sp := 0
  dt := 0
  st := 0
  wait := .running
  vblank := false
  mem := []
  pix := Vector.replicate 32 (Vector.replicate 64 false)
  key := Vector.replicate 16 false
  halted := none
  font := font
  fontWrite := fontWrite
  draws := draws
  drew := false
  schedule := schedule

/-- The machine right after reset, with the default FONT (PRESUMED, log entry 6), the spec's default FONT_WRITE
(log entry 7) and no transaction decided on (log entries 3 and 23). -/
def State.reset : State := State.fresh defaultFont .refuse 0 []

end Sys2Proof.Machine
end

