-- ==== Sys2Proof/Machine/Ops.lean ====
section
/-! DEFINITION. The named operations over memory, registers, the program counter and the stack, and raising a fatal
error (spec/20_memory.md R60 to R69; spec/10_state.md R33; spec/40_cycle.md R112 to R115; spec/60_exceptions.md R252). -/

namespace Sys2Proof.Machine

/-! ### Memory as cells -/

/-- What an address no cell lists reads as: FONT in 0x000-0x04F, and 0x00 elsewhere (R46, R75, D4; log entry 9). -/
def Memory.unlisted (font : Config.Font) (a : Nat) : Byte :=
  if h : a < 80 then font[a] else 0

/-- The byte the cells list at an address. -/
def Memory.find : Memory → Nat → Option Byte
  | [], _ => none
  | (k, b) :: rest, a => if k = a then some b else Memory.find rest a

/-- The byte at an address. -/
def Memory.read (font : Config.Font) (m : Memory) (a : Nat) : Byte :=
  (Memory.find m a).getD (Memory.unlisted font a)

/-- The cells without those at an address. -/
def Memory.without : Memory → Nat → Memory
  | [], _ => []
  | (k, b) :: rest, a => if k = a then Memory.without rest a else (k, b) :: Memory.without rest a

/-- A cell put before the first cell of a higher address. -/
def Memory.insert : Memory → Nat → Byte → Memory
  | [], a, v => [(a, v)]
  | (k, b) :: rest, a, v => if a < k then (a, v) :: (k, b) :: rest else (k, b) :: Memory.insert rest a v

/-- The cells after a byte is stored; a byte equal to what the unlisted address reads as leaves no cell. -/
def Memory.write (font : Config.Font) (m : Memory) (a : Nat) (v : Byte) : Memory :=
  if v = Memory.unlisted font a then Memory.without m a else Memory.insert (Memory.without m a) a v

/-- The cells after a list of bytes is stored from an address up. -/
def Memory.writeList (font : Config.Font) : Memory → Nat → List Byte → Memory
  | m, _, [] => m
  | m, a, v :: vs => Memory.writeList font (Memory.write font m a v) (a + 1) vs

/-- Whether the cells' addresses rise strictly, starting from `lo` at the least. -/
def Memory.rising (lo : Nat) : Memory → Bool
  | [] => true
  | (k, _) :: rest => decide (lo ≤ k) && Memory.rising (k + 1) rest

/-- The canonical form: addresses strictly rising and backed (R60), no cell equal to what its address reads as
when unlisted. -/
def Memory.wf (font : Config.Font) (m : Memory) : Bool :=
  Memory.rising 0 m && m.all (fun c => decide (c.1 ≤ 4095) && decide (c.2 ≠ Memory.unlisted font c.1))

/-! ### The state's memory -/

/-- The byte of the machine's memory at an address. -/
def State.byteAt (s : State) (a : Nat) : Byte := Memory.read s.font s.mem a

/-- The state with a byte stored, no check made. -/
def State.setByte (s : State) (a : Nat) (v : Byte) : State :=
  { s with mem := Memory.write s.font s.mem a v }

/-! ### Registers -/

/-- `V[r]` (R21). -/
def State.reg (s : State) (r : Nibble) : Byte := s.v[r.toFin]

/-- `V[r] <- b`; no register is hardwired (R21). -/
def State.setReg (s : State) (r : Nibble) (b : Byte) : State := { s with v := s.v.set r.toFin b }

/-- The values of V[k], V[k+1], ... , `n` of them. -/
def State.regsFrom (s : State) : Nat → Nat → List Byte
  | _, 0 => []
  | k, n + 1 => s.reg (BitVec.ofNat 4 k) :: State.regsFrom s (k + 1) n

/-- A list of bytes written to V[k], V[k+1], ... in this order. -/
def State.setRegsFrom (s : State) : Nat → List Byte → State
  | _, [] => s
  | k, b :: bs => State.setRegsFrom (s.setReg (BitVec.ofNat 4 k) b) (k + 1) bs

/-! ### The program counter -/

/-- The fetch advance, and a skip: `pc <- pc + 2` (R114, R139). -/
def State.advance (s : State) : State := { s with pc := s.pc + 2 }

/-- The rollback: `pc <- pc - 2` (R115). -/
def State.rollback (s : State) : State := { s with pc := s.pc - 2 }

/-- `pc <- target`. -/
def State.jumpTo (s : State) (target : Word) : State := { s with pc := target }

/-! ### Errors -/

/-- The fault latch set: `halted <- Some(e)` (R252). -/
def State.latch (s : State) (e : Error) : State := { s with halted := some e }

/-- Why an operation does not go on: a fatal error to raise, or a refusal (R123). -/
inductive Stop where
  | raised (e : Error)
  | refused (r : Refusal)
deriving DecidableEq, Repr

/-- A transaction that stops in the state `s0` it started from: an error is taken by latching it with nothing else
committed (R112, R252, D9; log entry 1), a refusal ends the step (R123). -/
def stopIn (s0 : State) : Stop → Host.Outcome State Fault Refusal
  | .raised e => .next (s0.latch e)
  | .refused r => .refused r

/-- An instruction that raises a fatal error: `s` is the state it started in, its pc already advanced, so the fetch
advance is undone too (R112, R252). -/
def raise (s : State) (e : Error) : Host.Outcome State Fault Refusal := stopIn s.rollback (.raised e)

/-- The end of an instruction that started in `s`: its result state, or the error or refusal it met (R112, R123). -/
def complete (s : State) : Except Stop State → Host.Outcome State Fault Refusal
  | .ok t => .next t
  | .error why => stopIn s.rollback why

/-! ### Checked accesses -/

/-- `MemRead(addr, 1)` (R62). -/
def memRead (s : State) (a : Nat) : Except Stop Byte :=
  if a > 4095 then .error (.raised (.addressOutOfRange a)) else .ok (s.byteAt a)

/-- `MemRead(addr, 2)`: the fetch read, high byte first (R64, R65). -/
def memRead2 (s : State) (a : Nat) : Except Stop Word :=
  match memRead s a with
  | .error why => .error why
  | .ok hi =>
    match memRead s (a + 1) with
    | .error why => .error why
    | .ok lo => .ok (wordOfBytes hi lo)

/-- `MemWrite(addr, 1, v)`: the range check, the font policy (R63, R69), then the store. -/
def memWrite (s : State) (a : Nat) (v : Byte) : Except Stop State :=
  if a > 4095 then .error (.raised (.addressOutOfRange a))
  else if a ≤ 0x04F then
    match s.fontWrite with
    | .store => .ok (s.setByte a v)
    | .refuse => .error (.refused (.fontWrite a))
  else .ok (s.setByte a v)

/-- `n` bytes read at `a`, `a + 1`, ... in increasing address, stopping at the first that fails (R180). -/
def readBytes (s : State) : Nat → Nat → Except Stop (List Byte)
  | _, 0 => .ok []
  | a, n + 1 =>
    match memRead s a with
    | .error why => .error why
    | .ok b =>
      match readBytes s (a + 1) n with
      | .error why => .error why
      | .ok bs => .ok (b :: bs)

/-- Bytes written at `a`, `a + 1`, ... in increasing address, stopping at the first that fails (R180). -/
def writeBytes : State → Nat → List Byte → Except Stop State
  | s, _, [] => .ok s
  | s, a, b :: bs =>
    match memWrite s a b with
    | .error why => .error why
    | .ok t => writeBytes t (a + 1) bs

/-! ### The call stack -/

/-- Push the (already advanced) pc, or StackOverflow when SP = 16 (R33, R34, R133). -/
def pushPc (s : State) : Except Stop State :=
  if h : s.sp.val < 16 then
    .ok { s with stack := s.stack.set s.sp.val s.pc h, sp := ⟨s.sp.val + 1, by omega⟩ }
  else .error (.raised .stackOverflow)

/-- Pop into pc, or StackUnderflow when SP = 0 (R33, R34, R131). The entry keeps its value (R35; log entry 18). -/
def popPc (s : State) : Except Stop State :=
  if h : s.sp.val = 0 then .error (.raised .stackUnderflow)
  else
    .ok { s with sp := ⟨s.sp.val - 1, by omega⟩, pc := s.stack[s.sp.val - 1]'(by omega) }

end Sys2Proof.Machine
end

