-- ==== Sys2Proof/Machine/Flags.lean ====
section
/-! DEFINITION. Every flag computation (spec/10_state.md R23, R24; spec/42_alu.md R150) and the one operation that
writes a result and then VF (spec/40_cycle.md R121; spec/42_alu.md R151). -/

namespace Sys2Proof.Machine

/-- A flag as a byte: 1 or 0. -/
def flagByte (c : Bool) : Byte := if c then 1 else 0

/-- Carry: 1 iff the true sum exceeds 255 (R160). -/
def carry (a b : Byte) : Byte := flagByte (decide (a.toNat + b.toNat > 255))

/-- No-borrow of `a - b`: 1 iff a is at least b (R161, R163). -/
def noBorrow (a b : Byte) : Byte := flagByte (decide (a.toNat ≥ b.toNat))

/-- The bit a right shift moves out: bit 0 (R162). -/
def bitOutRight (b : Byte) : Byte := b &&& 1

/-- The bit a left shift moves out: bit 7 (R164). -/
def bitOutLeft (b : Byte) : Byte := (b >>> 7) &&& 1

/-- The number of VF (R23). -/
def vfNum : Nibble := 0xF

/-- `V[x] <- r` and then `VF <- flag`: VF is written last, so the flag survives when x = F (R121, R151, D13;
log entry 14). -/
def State.setResultFlag (s : State) (x : Nibble) (r flag : Byte) : State := (s.setReg x r).setReg vfNum flag

end Sys2Proof.Machine
end

