-- ==== Sys2Proof/Machine/Alu.lean ====
section
/-! DEFINITION. Register and arithmetic instructions (spec/42_alu.md). Arithmetic is unsigned and wraps modulo 256
(R150); operands are read before any write and VF is written last (R121, R151). -/

namespace Sys2Proof.Machine

/-- `6xkk` (R153). -/
def execLdImm (x : Nibble) (kk : Byte) (s : State) : Host.Outcome State Fault Refusal := .next (s.setReg x kk)

/-- `7xkk`: no flag (R154). -/
def execAddImm (x : Nibble) (kk : Byte) (s : State) : Host.Outcome State Fault Refusal :=
  .next (s.setReg x (s.reg x + kk))

/-- `8xy0` (R155). -/
def execLdReg (x y : Nibble) (s : State) : Host.Outcome State Fault Refusal := .next (s.setReg x (s.reg y))

/-- `8xy1` (R156, R157). -/
def execOrReg (x y : Nibble) (s : State) : Host.Outcome State Fault Refusal :=
  .next (s.setResultFlag x (s.reg x ||| s.reg y) 0)

/-- `8xy2` (R156, R158). -/
def execAndReg (x y : Nibble) (s : State) : Host.Outcome State Fault Refusal :=
  .next (s.setResultFlag x (s.reg x &&& s.reg y) 0)

/-- `8xy3` (R156, R159). -/
def execXorReg (x y : Nibble) (s : State) : Host.Outcome State Fault Refusal :=
  .next (s.setResultFlag x (s.reg x ^^^ s.reg y) 0)

/-- `8xy4` (R160). -/
def execAddReg (x y : Nibble) (s : State) : Host.Outcome State Fault Refusal :=
  .next (s.setResultFlag x (s.reg x + s.reg y) (carry (s.reg x) (s.reg y)))

/-- `8xy5`: Vx minus Vy (R161). -/
def execSubReg (x y : Nibble) (s : State) : Host.Outcome State Fault Refusal :=
  .next (s.setResultFlag x (s.reg x - s.reg y) (noBorrow (s.reg x) (s.reg y)))

/-- `8xy7`: Vy minus Vx (R163). -/
def execSubnReg (x y : Nibble) (s : State) : Host.Outcome State Fault Refusal :=
  .next (s.setResultFlag x (s.reg y - s.reg x) (noBorrow (s.reg y) (s.reg x)))

/-- `8xy6`: the source is Vy (R162, R165). -/
def execShrReg (x y : Nibble) (s : State) : Host.Outcome State Fault Refusal :=
  .next (s.setResultFlag x (s.reg y >>> 1) (bitOutRight (s.reg y)))

/-- `8xyE`: the source is Vy (R164, R165). -/
def execShlReg (x y : Nibble) (s : State) : Host.Outcome State Fault Refusal :=
  .next (s.setResultFlag x (s.reg y <<< 1) (bitOutLeft (s.reg y)))

/-- `V[x] <- r & kk` for the byte `r` that was drawn; one draw is used up (R166, R167). -/
def State.setRandom (s : State) (x : Nibble) (kk r : Byte) : State :=
  { s.setReg x (r &&& kk) with draws := s.draws + 1 }

/-- `Cxkk`: the byte drawn is the free value `Config.rand` at the number of draws made so far (R166, R167, D21;
log entry 5). -/
def execRnd (x : Nibble) (kk : Byte) (s : State) : Host.Outcome State Fault Refusal :=
  .next (s.setRandom x kk (Config.rand s.draws))

end Sys2Proof.Machine
end

