-- ==== Sys2Proof/Machine/Operands.lean ====
section
/-! DEFINITION. The operand forms (spec/30_encoding.md R94; spec/43_index_memory.md R180): immediates, computed
targets, the glyph address, the key index, the effective address. Every immediate is zero-extended. -/

namespace Sys2Proof.Machine

/-- `zext_16(nnn)`: an absolute address (R94, R130, R133, R185). -/
def absTarget (nnn : Addr12) : Word := nnn.setWidth 16

/-- `zext_16(nnn) + zext_16(V[0])`: the target of Bnnn, not reduced to 12 bits (R140). -/
def offsetTarget (s : State) (nnn : Addr12) : Word := nnn.setWidth 16 + (s.reg 0).setWidth 16

/-- `zext_16(V[x] & 0xF) * 5`: the address of a font glyph (R187). -/
def glyphAddr (b : Byte) : Word := (b &&& 0x0F).setWidth 16 * 5

/-- `V[x] & 0xF`: the key index of Ex9E and ExA1 (R225, R226). -/
def keyIndex (b : Byte) : Nibble := b.setWidth 4

/-- The address of the k-th byte of an access through I: the mathematical sum I + k (R180, D15; log entry 10). -/
def effAddr (s : State) (k : Nat) : Nat := s.i.toNat + k

/-- `I <- (I + n) mod 65536` (R31). -/
def State.addToI (s : State) (n : Word) : State := { s with i := s.i + n }

/-- The three decimal digits of a byte: hundreds, tens, ones (R188). -/
def decimalDigits (b : Byte) : List Byte :=
  [BitVec.ofNat 8 (b.toNat / 100), BitVec.ofNat 8 (b.toNat / 10 % 10), BitVec.ofNat 8 (b.toNat % 10)]

/-- A skip: `pc <- pc + 2` when the condition holds (R139). -/
def skipIf (c : Bool) (s : State) : State := if c then s.advance else s

end Sys2Proof.Machine
end

