-- ==== Sys2Proof/Machine/ControlFlow.lean ====
section
/-! DEFINITION. Control transfer: jumps, call, return, skips (spec/41_control_flow.md). The state a meaning takes has
its pc already advanced by 2 (spec/40_cycle.md R114). -/

namespace Sys2Proof.Machine

/-- `00EE` (R131). -/
def execRet (s : State) : Host.Outcome State Fault Refusal := complete s (popPc s)

/-- `1nnn` (R130). -/
def execJp (nnn : Addr12) (s : State) : Host.Outcome State Fault Refusal := .next (s.jumpTo (absTarget nnn))

/-- `2nnn` (R133). -/
def execCall (nnn : Addr12) (s : State) : Host.Outcome State Fault Refusal :=
  complete s (Except.map (fun t => t.jumpTo (absTarget nnn)) (pushPc s))

/-- `3xkk` (R135). -/
def execSeImm (x : Nibble) (kk : Byte) (s : State) : Host.Outcome State Fault Refusal :=
  .next (skipIf (s.reg x == kk) s)

/-- `4xkk` (R136). -/
def execSneImm (x : Nibble) (kk : Byte) (s : State) : Host.Outcome State Fault Refusal :=
  .next (skipIf (s.reg x != kk) s)

/-- `5xy0` (R137). -/
def execSeReg (x y : Nibble) (s : State) : Host.Outcome State Fault Refusal :=
  .next (skipIf (s.reg x == s.reg y) s)

/-- `9xy0` (R138). -/
def execSneReg (x y : Nibble) (s : State) : Host.Outcome State Fault Refusal :=
  .next (skipIf (s.reg x != s.reg y) s)

/-- `Bnnn` (R140). -/
def execJpV0 (nnn : Addr12) (s : State) : Host.Outcome State Fault Refusal := .next (s.jumpTo (offsetTarget s nnn))

end Sys2Proof.Machine
end

