-- ==== Sys2Proof/Machine/Screen.lean ====
section
/-! DEFINITION. The display controller (spec/44_display.md R201 to R206, R210, R211): pixels with wrap-around,
clearing, XOR sprite drawing with the collision signal, and the linear buffer. -/

namespace Sys2Proof.Machine

/-- `pix[px mod 64][py mod 32]` (R201, R211). -/
def Grid.get (g : Grid) (px py : Nat) : Bool :=
  (g[py % 32]'(Nat.mod_lt _ (by decide)))[px % 64]'(Nat.mod_lt _ (by decide))

/-- `pix[px mod 64][py mod 32] <- on` (R201, R211). -/
def Grid.set (g : Grid) (px py : Nat) (on : Bool) : Grid :=
  Vector.set g (py % 32)
    (Vector.set (g[py % 32]'(Nat.mod_lt _ (by decide))) (px % 64) on (Nat.mod_lt _ (by decide)))
    (Nat.mod_lt _ (by decide))

/-- `clear()`: every pixel off (R202). -/
def Grid.blank : Grid := Vector.replicate 32 (Vector.replicate 64 false)

/-- One sprite bit at (px, py): a zero bit leaves the pixel, a one bit XORs it and notes an on-to-off transition
(R203, R206). The pair is (collided, display). -/
def drawBit (bit : Bool) (px py : Nat) (acc : Bool × Grid) : Bool × Grid :=
  if bit then (acc.1 || Grid.get acc.2 px py, Grid.set acc.2 px py (!Grid.get acc.2 px py)) else acc

/-- The bits of a row byte from column `c` on, `n` of them; column c is bit 7 - c, most significant first (R203). -/
def drawColumns (row : Byte) (x py : Nat) : Nat → Nat → Bool × Grid → Bool × Grid
  | _, 0, acc => acc
  | c, n + 1, acc => drawColumns row x py (c + 1) n (drawBit (row.getLsbD (7 - c)) (x + c) py acc)

/-- The rows of a sprite, the first at row y (R203). -/
def drawRows (x : Nat) : Nat → List Byte → Bool × Grid → Bool × Grid
  | _, [], acc => acc
  | y, row :: rows, acc => drawRows x (y + 1) rows (drawColumns row x y 0 8 acc)

/-- `draw_sprite(x, y, rows)`: whether some pixel turned from on to off, and the display (R203, R204, R206). -/
def drawSprite (g : Grid) (x y : Nat) (rows : List Byte) : Bool × Grid := drawRows x y rows (false, g)

/-- `to_linear_buffer()`: row-major, entry `py * 64 + px` is `pix[px][py]` (R210). -/
def linearBuffer (s : State) : List Bool := s.pix.toList.flatMap Vector.toList

/-- `get_pixel(px, py)`, a test port of the host (R211, D25; log entry 17). -/
def getPixel (s : State) (px py : Nat) : Bool := Grid.get s.pix px py

end Sys2Proof.Machine
end

