-- ==== Sys2Proof/Machine/Display.lean ====
section
/-! DEFINITION. The display instructions (spec/44_display.md R200, R205). -/

namespace Sys2Proof.Machine

/-- `00E0`: not subject to the draw lock (R200). -/
def execCls (s : State) : Host.Outcome State Fault Refusal := .next { s with pix := Grid.blank }

/-- The state after a sprite of the given rows is drawn at (Vx, Vy): display, VF, draw lock, draw signal (R205). -/
def State.withSprite (s : State) (x y : Nibble) (rows : List Byte) : State :=
  let d := drawSprite s.pix (s.reg x).toNat (s.reg y).toNat rows
  { s.setReg vfNum (flagByte d.1) with pix := d.2, vblank := true, drew := true }

/-- `Dxyn`: the draw lock is tested first; a blocked draw only rolls pc back (R205, R207, R115). -/
def execDrw (x y n : Nibble) (s : State) : Host.Outcome State Fault Refusal :=
  if s.vblank then .next s.rollback
  else complete s (Except.map (s.withSprite x y) (readBytes s (effAddr s 0) n.toNat))

end Sys2Proof.Machine
end

