-- ==== Sys2Proof/Machine/IndexMemory.lean ====
section
/-! DEFINITION. Index register and memory instructions (spec/43_index_memory.md). An error or a refusal commits
nothing (spec/40_cycle.md R112, R123). -/

namespace Sys2Proof.Machine

/-- `Annn` (R185). -/
def execLdI (nnn : Addr12) (s : State) : Host.Outcome State Fault Refusal := .next { s with i := absTarget nnn }

/-- `Fx1E`: no flag (R186). -/
def execAddI (x : Nibble) (s : State) : Host.Outcome State Fault Refusal :=
  .next (s.addToI ((s.reg x).setWidth 16))

/-- `Fx29` (R187). -/
def execLdF (x : Nibble) (s : State) : Host.Outcome State Fault Refusal :=
  .next { s with i := glyphAddr (s.reg x) }

/-- `Fx33` (R188). -/
def execLdB (x : Nibble) (s : State) : Host.Outcome State Fault Refusal :=
  complete s (writeBytes s (effAddr s 0) (decimalDigits (s.reg x)))

/-- `Fx55`: V0..Vx inclusive, then I + x + 1 (R190). -/
def execStRegs (x : Nibble) (s : State) : Host.Outcome State Fault Refusal :=
  complete s (Except.map (fun t => t.addToI (BitVec.ofNat 16 (x.toNat + 1)))
    (writeBytes s (effAddr s 0) (s.regsFrom 0 (x.toNat + 1))))

/-- `Fx65`: V0..Vx inclusive, then I + x + 1 (R191). -/
def execLdRegs (x : Nibble) (s : State) : Host.Outcome State Fault Refusal :=
  complete s (Except.map (fun bs => (s.setRegsFrom 0 bs).addToI (BitVec.ofNat 16 (x.toNat + 1)))
    (readBytes s (effAddr s 0) (x.toNat + 1)))

end Sys2Proof.Machine
end

