-- ==== Sys2Proof/Machine/Keyboard.lean ====
section
/-! DEFINITION. The keyboard's queries (spec/45_keys_timers.md R221, R222) and the tone output (R243). -/

namespace Sys2Proof.Machine

/-- `is_key_pressed(k)` (R221). -/
def State.keyPressed (s : State) (k : Nibble) : Bool := s.key[k.toFin]

/-- The least pressed key among `k`, `k + 1`, ... , `n` of them. -/
def lowestFrom (s : State) : Nat → Nat → Option Nibble
  | _, 0 => none
  | k, n + 1 => if s.keyPressed (BitVec.ofNat 4 k) then some (BitVec.ofNat 4 k) else lowestFrom s (k + 1) n

/-- `lowest_pressed()`: the lowest-indexed pressed key, or none (R222). -/
def lowestPressed (s : State) : Option Nibble := lowestFrom s 0 16

/-- The audio output: `tone = (ST > 0)` (R243). -/
def tone (s : State) : Bool := decide (s.st.toNat > 0)

end Sys2Proof.Machine
end

