-- ==== Sys2Proof/Machine/KeysTimers.lean ====
section
/-! DEFINITION. The key and timer instructions (spec/45_keys_timers.md R225 to R236). -/

namespace Sys2Proof.Machine

/-- `Ex9E` (R225). -/
def execSkp (x : Nibble) (s : State) : Host.Outcome State Fault Refusal :=
  .next (skipIf (s.keyPressed (keyIndex (s.reg x))) s)

/-- `ExA1` (R226). -/
def execSknp (x : Nibble) (s : State) : Host.Outcome State Fault Refusal :=
  .next (skipIf (!s.keyPressed (keyIndex (s.reg x))) s)

/-- `Fx07` (R230). -/
def execLdVxDt (x : Nibble) (s : State) : Host.Outcome State Fault Refusal := .next (s.setReg x s.dt)

/-- What Fx0A does while no key is remembered: it looks for a press and rolls back (R232, R233). -/
def awaitPress (s : State) : State :=
  { s.rollback with
    wait := match lowestPressed s with
      | none => .awaitingKeyPress
      | some k => .awaitingKeyRelease k }

/-- `Fx0A`: the press-then-release wait, row by row of R233 (R232). -/
def execLdVxK (x : Nibble) (s : State) : Host.Outcome State Fault Refusal :=
  match s.wait with
  | .running => .next (awaitPress s)
  | .awaitingKeyPress => .next (awaitPress s)
  | .awaitingKeyRelease k =>
    if s.keyPressed k then .next s.rollback
    else .next { s.setReg x (k.setWidth 8) with wait := .running }

/-- `Fx15` (R235). -/
def execLdDtVx (x : Nibble) (s : State) : Host.Outcome State Fault Refusal := .next { s with dt := s.reg x }

/-- `Fx18` (R236). -/
def execLdStVx (x : Nibble) (s : State) : Host.Outcome State Fault Refusal := .next { s with st := s.reg x }

end Sys2Proof.Machine
end

