-- ==== Sys2Proof/Machine/Transactions.lean ====
section
/-! DEFINITION. The effects of the host's transactions other than the cycle (spec/70_reset_and_hazards.md R290):
tick, key setting, ROM load, reset, the pixel test port. When each is accepted is `perform` (Machine/Cycle.lean). -/

namespace Sys2Proof.Machine

/-- A timer's decrement, floored at 0 (R36, R240). -/
def countDown (t : Byte) : Byte := if t = 0 then 0 else t - 1

/-- `tick_timers()`: both timers and the draw lock, nothing else (R240). -/
def State.tickTimers (s : State) : State :=
  { s with dt := countDown s.dt, st := countDown s.st, vblank := false }

/-- `set_key(k, pressed)` (R220). -/
def State.setKey (s : State) (k : Nibble) (pressed : Bool) : State :=
  { s with key := s.key.set k.toFin pressed }

/-- `load(rom)`: the length is checked first; RomTooLarge writes nothing and latches (R76, D19; log entry 16). -/
def loadRom (s : State) (rom : List Byte) : Host.Outcome State Fault Refusal :=
  if romFits rom then .next { s with mem := Memory.writeList s.font s.mem 0x200 rom }
  else stopIn s (.raised (.romTooLarge rom.length))

/-- `reset()`: every component is built afresh (R46, R280); the parameters, the count of random draws and the host's
further transactions are no components of the machine and stay (log entry 22). -/
def State.rebuilt (s : State) : State := State.fresh s.font s.fontWrite s.draws s.schedule

/-- `set_pixel(px, py, on)`, a test port of the host (R211, D25; log entry 17). -/
def State.setPixel (s : State) (px py : Nat) (on : Bool) : State := { s with pix := Grid.set s.pix px py on }

end Sys2Proof.Machine
end

