-- ==== Sys2Proof/Machine/Cycle.lean ====
section
/-! DEFINITION. The fetch-decode-execute cycle (spec/40_cycle.md R110 to R119) and the performing of one host
transaction, with when it is accepted (spec/70_reset_and_hazards.md R290; spec/60_exceptions.md R254). -/

namespace Sys2Proof.Machine

/-- A cycle begins with `drew <- 0` (R111). -/
def State.beginCycle (s : State) : State := { s with drew := false }

/-- Fetch: the big-endian word at pc (R113). No alignment is checked (R66, D24; log entry 11). -/
def fetch (s : State) : Except Stop Word := memRead2 s s.pc.toNat

/-- Decode and execute a fetched word: pc is advanced first, an unknown word raises UnknownOpcode (R114, R118). -/
def runWord (w : Word) (s : State) : Host.Outcome State Fault Refusal :=
  match decodeWord w with
  | none => raise s.advance (.unknownOpcode w)
  | some i => exec i s.advance

/-- `cycle()` on a machine that is not halted (R111). Its result is read off the next state: Err(e) is the latch
`halted = some e`, Ok(drew) is `drew` (log entries 1 and 4). -/
def cycle (s : State) : Host.Outcome State Fault Refusal :=
  match fetch s.beginCycle with
  | .error why => stopIn s.beginCycle why
  | .ok w => runWord w s.beginCycle

/-- A transaction on a machine that is not halted (R290). -/
def act (tr : Transaction) (s : State) : Host.Outcome State Fault Refusal :=
  match tr with
  | .cycle => cycle s
  | .tickTimers => .next s.tickTimers
  | .setKey k pressed => .next (s.setKey k pressed)
  | .load rom => loadRom s rom
  | .reset => .next s.rebuilt
  | .setPixel px py on => .next (s.setPixel px py on)

/-- A transaction on any machine: a halted one accepts reset only, and has no step for any other (R254, R290, D20;
log entry 2). -/
def perform (tr : Transaction) (s : State) : Host.Outcome State Fault Refusal :=
  match s.halted with
  | none => act tr s
  | some e =>
    match tr with
    | .reset => .next s.rebuilt
    | .cycle => .fault (.halted e)
    | .tickTimers => .fault (.halted e)
    | .setKey _ _ => .fault (.halted e)
    | .load _ => .fault (.halted e)
    | .setPixel _ _ _ => .fault (.halted e)

end Sys2Proof.Machine
end

