-- ==== Sys2Proof/Machine/Step.lean ====
section
/-! DEFINITION. One step: the host's next transaction (spec/20_memory.md R71; spec/70_reset_and_hazards.md R290).
The host's order of transactions is the plain-data field `schedule` (log entry 3). -/

namespace Sys2Proof.Machine

/-- The next transaction the host has decided on, or a cycle where it has decided on none. -/
def step (s : State) : Host.Outcome State Fault Refusal :=
  match s.schedule with
  | [] => perform .cycle s
  | tr :: rest => perform tr { s with schedule := rest }

/-- The address the next fetch can read two bytes from: pc, or the reset entry point 0x200 where pc is above 0xFFE
and no fetch can succeed (R113). -/
def State.fetchAddr (s : State) : Word := if s.pc.toNat ≤ 0xFFE then s.pc else 0x200

/-- `s` with the instruction whose bits are `w`, numbered as the opcode table numbers them, stored where `step`
fetches next, and with what that fetch needs: no other transaction before the cycle, the machine not halted, pc where
two bytes can be read (log entry 23). -/
def State.withFetchWord (s : State) (nbits w : Nat) : State :=
  { s with
    pc := s.fetchAddr
    halted := none
    schedule := []
    mem := Memory.writeList s.font s.mem s.fetchAddr.toNat [(tableBytes nbits w).1, (tableBytes nbits w).2] }

end Sys2Proof.Machine
end

