-- ==== Sys2Proof/Machine/Scheduler.lean ====
section
/-! DEFINITION. The scheduler contract the environment owes the block (spec/70_reset_and_hazards.md R291), as
executable definitions over `perform`. The scheduler lies outside the block and `step` does not use it (log entry 20). -/

namespace Sys2Proof.Machine

/-- One after the other, the second only after a next state. -/
def andThen (o : Host.Outcome State Fault Refusal) (f : State → Host.Outcome State Fault Refusal) :
    Host.Outcome State Fault Refusal :=
  match o with
  | .next t => f t
  | .fault r => .fault r
  | .refused r => .refused r

/-- Go on only while no fatal error is latched: the scheduler issues nothing more in a frame after one
(DESIGN CHOICE: log entry 28). -/
def whileRunning (f : State → Host.Outcome State Fault Refusal) (s : State) : Host.Outcome State Fault Refusal :=
  match s.halted with
  | none => f s
  | some _ => .next s

/-- The cycles a frame may still issue after a cycle that left the state `t`: none after a draw when STOP_ON_DRAW is
set (R291). -/
def cyclesLeft (stopOnDraw : Bool) (n : Nat) (t : State) : Nat := if stopOnDraw && t.drew then 0 else n

/-- The cycles' part of a frame, event by event: at most `n` cycles are issued, and a cycle beyond the bound is not; keys
may be set between cycles (R291, R292). -/
def runEvents (stopOnDraw : Bool) : Nat → List Config.FrameEvent → State → Host.Outcome State Fault Refusal
  | _, [], s => .next s
  | n, .setKey k pressed :: es, s => andThen (perform (.setKey k pressed) s) (runEvents stopOnDraw n es)
  | 0, .cycle :: es, s => runEvents stopOnDraw 0 es s
  | n + 1, .cycle :: es, s =>
    andThen (perform .cycle s) (whileRunning fun t => runEvents stopOnDraw (cyclesLeft stopOnDraw n t) es t)

/-- The cycles and the one tick of a logical tick, in the configured order (R291). -/
def runTick (cfg : Config.Scheduler) (es : List Config.FrameEvent) (s : State) : Host.Outcome State Fault Refusal :=
  match cfg.tickOrder with
  | .beforeCycles => andThen (perform .tickTimers s) (runEvents cfg.stopOnDraw cfg.cyclesPerTick es)
  | .afterCycles =>
    andThen (runEvents cfg.stopOnDraw cfg.cyclesPerTick es s) (whileRunning (perform .tickTimers))

/-- The scheduler's answer to a latched error: nothing, or a reset and a load (R252, R282). That there are these two,
and that they come at the end of the frame, is the model's choice: DESIGN CHOICE, log entry 28. -/
def answerError (cfg : Config.Scheduler) (s : State) : Host.Outcome State Fault Refusal :=
  match s.halted, cfg.onError with
  | none, _ => .next s
  | some _, .halt => .next s
  | some _, .reset rom => andThen (perform .reset s) (perform (.load rom))

/-- One frame: a logical tick of a running machine, and then the answer to an error. A halted machine is issued neither
cycle nor tick nor key (R254). -/
def runFrame (cfg : Config.Scheduler) (es : List Config.FrameEvent) (s : State) : Host.Outcome State Fault Refusal :=
  andThen (whileRunning (runTick cfg es) s) (answerError cfg)

/-- Frames one after the other, each with its own events. After a fatal error the later frames issue nothing where the
scheduler halts, and go on from the reset machine where it resets (DESIGN CHOICE: log entry 28). -/
def runFrames (cfg : Config.Scheduler) : List (List Config.FrameEvent) → State → Host.Outcome State Fault Refusal
  | [], s => .next s
  | es :: frames, s => andThen (runFrame cfg es s) (runFrames cfg frames)

/-- The catch-up of one outer iteration: of the frames that are due, at most CATCHUP_MAX (R291). -/
def catchUp (cfg : Config.Scheduler) (due : List (List Config.FrameEvent)) (s : State) :
    Host.Outcome State Fault Refusal :=
  runFrames cfg (due.take cfg.catchupMax) s

end Sys2Proof.Machine
end

