-- ==== Sys2Proof/Machine/HostRun.lean ====
section
/-! DEFINITION. Hosts that go on for ever, and the duties of R292 as fairness assumptions on them
(spec/70_reset_and_hazards.md R290, R292; log entry 29). `step` does not use them: a claim takes a host as an argument and
the duties it needs as hypotheses. -/

namespace Sys2Proof.Machine

/-- What a host issues at each moment, for ever; `none` where it issues nothing. It is no part of State. -/
abbrev HostBehaviour := Nat → Option Transaction

/-- What a moment does to the machine. -/
def issue (tr : Option Transaction) (s : State) : Host.Outcome State Fault Refusal :=
  match tr with
  | none => .next s
  | some tr => perform tr s

/-- The first `n` moments of a host, from a machine. -/
def hostRun (h : HostBehaviour) : Nat → State → Host.Outcome State Fault Refusal
  | 0, s => .next s
  | n + 1, s => andThen (hostRun h n s) (issue (h n))

/-- A list of transactions, one after the other. -/
def performAll : List Transaction → State → Host.Outcome State Fault Refusal
  | [], s => .next s
  | tr :: trs, s => andThen (perform tr s) (performAll trs)

/-- The level of key `k` before moment `n`, as the host has set it; a reset releases every key (R46, R220). -/
def keyLevel (h : HostBehaviour) (start : Nibble → Bool) (k : Nibble) : Nat → Bool
  | 0 => start k
  | n + 1 =>
    match h n with
    | some (.setKey j pressed) => if j = k then pressed else keyLevel h start k n
    | some .reset => false
    | some .cycle => keyLevel h start k n
    | some .tickTimers => keyLevel h start k n
    | some (.load _) => keyLevel h start k n
    | some (.setPixel _ _ _) => keyLevel h start k n
    | none => keyLevel h start k n

/-- The duty to issue ticks: after every moment comes one (R292). -/
def KeepsTicking (h : HostBehaviour) : Prop := ∀ n, ∃ m, n ≤ m ∧ h m = some .tickTimers

/-- The duty to keep issuing cycles (R292). -/
def KeepsCycling (h : HostBehaviour) : Prop := ∀ n, ∃ m, n ≤ m ∧ h m = some .cycle

/-- The duty to deliver key levels through set_key (R292), for a user who goes on pressing and releasing keys: again and
again a cycle finds some key pressed, and again and again a cycle finds each key released. -/
structure DeliversKeys (h : HostBehaviour) (start : Nibble → Bool) : Prop where
  pressed : ∀ n, ∃ m k, n ≤ m ∧ h m = some .cycle ∧ keyLevel h start k m = true
  released : ∀ n k, ∃ m, n ≤ m ∧ h m = some .cycle ∧ keyLevel h start k m = false

/-- The duties of R292 together: the fairness assumption on the host. -/
structure Fair (h : HostBehaviour) (start : Nibble → Bool) : Prop where
  ticks : KeepsTicking h
  cycles : KeepsCycling h
  keys : DeliversKeys h start

/-- A host that leaves the program in place: it issues no reset and no load. -/
def LeavesProgram (h : HostBehaviour) : Prop := ∀ m, h m ≠ some .reset ∧ ∀ rom, h m ≠ some (.load rom)

end Sys2Proof.Machine
end

