-- ==== Sys2Proof/Safety.lean ====
section
/-! DEFINITION. What claims are stated in: running machines, the invariant every step keeps, the read-only font, the
sprite in closed form, short instruction sequences, and the end of a run (spec/70_reset_and_hazards.md R293). -/

namespace Sys2Proof.Machine

/-- The machine runs: no fatal error is latched (spec/10_state.md R44). -/
def State.running (s : State) : Prop := s.halted = none

/-- The invariant of every state a run reaches: memory in canonical form; pc at most 0x10FE (spec/10_state.md R28);
every valid return address at most 0x1000 (R28). -/
structure State.Inv (s : State) : Prop where
  mem_wf : Memory.wf s.font s.mem = true
  pc_le : s.pc.toNat ≤ 0x10FE
  stack_le : ∀ k (h : k < 16), k < s.sp.val → (s.stack[k]'h).toNat ≤ 0x1000

/-- The font bytes in memory are FONT (spec/20_memory.md R68, R75). -/
def State.FontIntact (s : State) : Prop := ∀ a (h : a < 80), s.byteAt a = s.font[a]

/-- The state holds the table of spec/10_state.md R46, with FONT in the font region. -/
structure State.IsFresh (s : State) : Prop where
  pc_eq : s.pc.toNat = 0x200
  regs_zero : ∀ r : Nibble, s.reg r = 0
  i_zero : s.i = 0
  sp_zero : s.sp = 0
  stack_zero : ∀ k (h : k < 16), s.stack[k]'h = 0
  timers_zero : s.dt = 0 ∧ s.st = 0
  wait_running : s.wait = .running
  lock_open : s.vblank = false
  font_bytes : s.FontIntact
  other_bytes : ∀ a, 80 ≤ a → s.byteAt a = 0
  pixels_off : ∀ px py, Grid.get s.pix px py = false
  keys_released : ∀ k : Nibble, s.keyPressed k = false
  not_halted : s.halted = none

/-- The registers an instruction may write: its destination, and VF where its rule writes VF as a flag
(spec/10_state.md R22, R23). -/
def writesReg : Instr → Nibble → Bool
  | .cls, _ => false
  | .ret, _ => false
  | .jp _, _ => false
  | .call _, _ => false
  | .seImm _ _, _ => false
  | .sneImm _ _, _ => false
  | .seReg _ _, _ => false
  | .ldImm x _, r => r == x
  | .addImm x _, r => r == x
  | .ldReg x _, r => r == x
  | .orReg x _, r => r == x || r == vfNum
  | .andReg x _, r => r == x || r == vfNum
  | .xorReg x _, r => r == x || r == vfNum
  | .addReg x _, r => r == x || r == vfNum
  | .subReg x _, r => r == x || r == vfNum
  | .shrReg x _, r => r == x || r == vfNum
  | .subnReg x _, r => r == x || r == vfNum
  | .shlReg x _, r => r == x || r == vfNum
  | .sneReg _ _, _ => false
  | .ldI _, _ => false
  | .jpV0 _, _ => false
  | .rnd x _, r => r == x
  | .drw _ _ _, r => r == vfNum
  | .skp _, _ => false
  | .sknp _, _ => false
  | .ldVxDt x, r => r == x
  | .ldVxK x, r => r == x
  | .ldDtVx _, _ => false
  | .ldStVx _, _ => false
  | .addI _, _ => false
  | .ldF _, _ => false
  | .ldB _, _ => false
  | .stRegs _, _ => false
  | .ldRegs x, r => decide (r ≤ x)

/-- How many bytes of memory an instruction stores, from the address in I up (spec/20_memory.md R67). -/
def storedBytes : Instr → Nat
  | .cls => 0
  | .ret => 0
  | .jp _ => 0
  | .call _ => 0
  | .seImm _ _ => 0
  | .sneImm _ _ => 0
  | .seReg _ _ => 0
  | .ldImm _ _ => 0
  | .addImm _ _ => 0
  | .ldReg _ _ => 0
  | .orReg _ _ => 0
  | .andReg _ _ => 0
  | .xorReg _ _ => 0
  | .addReg _ _ => 0
  | .subReg _ _ => 0
  | .shrReg _ _ => 0
  | .subnReg _ _ => 0
  | .shlReg _ _ => 0
  | .sneReg _ _ => 0
  | .ldI _ => 0
  | .jpV0 _ => 0
  | .rnd _ _ => 0
  | .drw _ _ _ => 0
  | .skp _ => 0
  | .sknp _ => 0
  | .ldVxDt _ => 0
  | .ldVxK _ => 0
  | .ldDtVx _ => 0
  | .ldStVx _ => 0
  | .addI _ => 0
  | .ldF _ => 0
  | .ldB _ => 3
  | .stRegs x => x.toNat + 1
  | .ldRegs _ => 0

/-- The parts of the state beside V0-VF, pc and memory that some instruction writes. -/
inductive Part where
  | i
  | stack
  | dt
  | st
  | wait
  | vblank
  | pix
  | draws
  | drew
  | halted
deriving DecidableEq, Repr

/-- The parts an instruction may write (spec/10_state.md R30, R33, R36, R39, R40; spec/60_exceptions.md R250 for
`halted`). -/
def writesPart : Instr → List Part
  | .cls => [.pix]
  | .ret => [.stack, .halted]
  | .jp _ => []
  | .call _ => [.stack, .halted]
  | .seImm _ _ => []
  | .sneImm _ _ => []
  | .seReg _ _ => []
  | .ldImm _ _ => []
  | .addImm _ _ => []
  | .ldReg _ _ => []
  | .orReg _ _ => []
  | .andReg _ _ => []
  | .xorReg _ _ => []
  | .addReg _ _ => []
  | .subReg _ _ => []
  | .shrReg _ _ => []
  | .subnReg _ _ => []
  | .shlReg _ _ => []
  | .sneReg _ _ => []
  | .ldI _ => [.i]
  | .jpV0 _ => []
  | .rnd _ _ => [.draws]
  | .drw _ _ _ => [.pix, .vblank, .drew, .halted]
  | .skp _ => []
  | .sknp _ => []
  | .ldVxDt _ => []
  | .ldVxK _ => [.wait]
  | .ldDtVx _ => [.dt]
  | .ldStVx _ => [.st]
  | .addI _ => [.i]
  | .ldF _ => [.i]
  | .ldB _ => [.halted]
  | .stRegs _ => [.i, .halted]
  | .ldRegs _ => [.i, .halted]

/-- The pc after a successful instruction that ran on the state `s`, whose pc is a + 2 (spec/40_cycle.md R116). -/
def pcAfter : Instr → State → Word
  | .cls, s => s.pc
  | .ret, s => if h : s.sp.val = 0 then s.pc else s.stack[s.sp.val - 1]'(by omega)
  | .jp nnn, _ => nnn.setWidth 16
  | .call nnn, _ => nnn.setWidth 16
  | .seImm x kk, s => if s.reg x = kk then s.pc + 2 else s.pc
  | .sneImm x kk, s => if s.reg x = kk then s.pc else s.pc + 2
  | .seReg x y, s => if s.reg x = s.reg y then s.pc + 2 else s.pc
  | .ldImm _ _, s => s.pc
  | .addImm _ _, s => s.pc
  | .ldReg _ _, s => s.pc
  | .orReg _ _, s => s.pc
  | .andReg _ _, s => s.pc
  | .xorReg _ _, s => s.pc
  | .addReg _ _, s => s.pc
  | .subReg _ _, s => s.pc
  | .shrReg _ _, s => s.pc
  | .subnReg _ _, s => s.pc
  | .shlReg _ _, s => s.pc
  | .sneReg x y, s => if s.reg x = s.reg y then s.pc else s.pc + 2
  | .ldI _, s => s.pc
  | .jpV0 nnn, s => nnn.setWidth 16 + (s.reg 0).setWidth 16
  | .rnd _ _, s => s.pc
  | .drw _ _ _, s => if s.vblank = true then s.pc - 2 else s.pc
  | .skp x, s => if s.keyPressed ((s.reg x).setWidth 4) = true then s.pc + 2 else s.pc
  | .sknp x, s => if s.keyPressed ((s.reg x).setWidth 4) = true then s.pc else s.pc + 2
  | .ldVxDt _, s => s.pc
  | .ldVxK _, s =>
    match s.wait with
    | .running => s.pc - 2
    | .awaitingKeyPress => s.pc - 2
    | .awaitingKeyRelease k => if s.keyPressed k = true then s.pc - 2 else s.pc
  | .ldDtVx _, s => s.pc
  | .ldStVx _, s => s.pc
  | .addI _, s => s.pc
  | .ldF _, s => s.pc
  | .ldB _, s => s.pc
  | .stRegs _, s => s.pc
  | .ldRegs _, s => s.pc

/-- An outcome with its next state changed. -/
def mapNext (f : State → State) (o : Host.Outcome State Fault Refusal) : Host.Outcome State Fault Refusal :=
  match o with
  | .next t => .next (f t)
  | .fault r => .fault r
  | .refused r => .refused r

/-- Instructions executed one after the other, each on the advanced pc (spec/40_cycle.md R114), without their fetch. -/
def runInstrs : List Instr → State → Host.Outcome State Fault Refusal
  | [], s => .next s
  | i :: is, s => andThen (exec i s.advance) (runInstrs is)

/-- How many rows below `y` (modulo 32) the row `py` lies. -/
def rowOffset (y py : Nat) : Nat := (py % 32 + 32 - y % 32) % 32

/-- How many columns right of `x` (modulo 64) the column `px` lies. -/
def colOffset (x px : Nat) : Nat := (px % 64 + 64 - x % 64) % 64

/-- The sprite bit that a sprite drawn at (x, y) lays over the pixel (px, py), both reduced to the grid; a pixel
outside the sprite has the bit 0 (spec/44_display.md R203, R204). -/
def spriteBit (x y : Nat) (rows : List Byte) (px py : Nat) : Bool :=
  match rows[rowOffset y py]? with
  | none => false
  | some row => decide (colOffset x px < 8) && row.getLsbD (7 - colOffset x px)

/-- The `n` bytes of memory from an address up. -/
def State.bytesFrom (s : State) : Nat → Nat → List Byte
  | _, 0 => []
  | a, n + 1 => s.byteAt a :: State.bytesFrom s (a + 1) n

/-- A step that performs one of the host's cycles. -/
def State.nextIsCycle (s : State) : Prop := s.schedule = [] ∨ s.schedule.head? = some .cycle

/-- How many of the next `n` steps draw a sprite (the draw signal of spec/40_cycle.md R117); the count ends where the
run does. -/
def drawsWithin : Nat → State → Nat
  | 0, _ => 0
  | n + 1, s =>
    match step s with
    | .next t => (if (s.schedule.head?.getD .cycle) = .cycle ∧ t.drew = true then 1 else 0) + drawsWithin n t
    | .fault _ => 0
    | .refused _ => 0

/-- The first `n` transactions of the host hold neither a tick nor a reset. -/
def noTickWithin (n : Nat) (s : State) : Prop :=
  ∀ tr ∈ s.schedule.take n, tr ≠ .tickTimers ∧ tr ≠ .reset

/-- The machine runs and its pc is at instruction `i`, two bytes that can be fetched (spec/40_cycle.md R113, R118). -/
structure State.At (s : State) (i : Instr) : Prop where
  running : s.halted = none
  pc_le : s.pc.toNat ≤ 0xFFE
  decodes : decodeWord (wordOfBytes (s.byteAt s.pc.toNat) (s.byteAt (s.pc.toNat + 1))) = some i

/-- The suggested END_CONDITION of R293: the instruction at `e`, where pc is, is a jump to itself (log entry 21). -/
def State.atSelfJump (s : State) (e : Addr12) : Prop :=
  s.pc = absTarget e ∧ memRead2 s s.pc.toNat = .ok (encode (.jp e))

end Sys2Proof.Machine
end

