-- ==== Sys2Proof/Certificates/Slice0/Obligations.lean ====
section
/-! DEFINITION. The statements for the provers, from the numbered rules of spec/. In each, `exec i s` is the effect of
instruction `i` on a state whose pc is already advanced to a + 2 (spec/40_cycle.md R114). A clause that rests on a
decision of the spec or a choice of the model names the decision or the log entry. -/

open Sys2Proof Sys2Proof.Machine

/-! ### Encoding -/

/-- Decoding the word of a well-formed instruction gives the instruction back, every operand at every value
(30_encoding.md R92, R93, R96). -/
def Obligations.DecodeEncodeRoundTrip : Prop :=
  ∀ i : Instr, i.wellFormed = true → decodeWord (encode i) = some i

/-- A word that decodes has one meaning: it is the word of the instruction it decodes to (30_encoding.md R96, R98). -/
def Obligations.EncodeDecodeRoundTrip : Prop :=
  ∀ (w : Word) (i : Instr), decodeWord w = some i → encode i = w

/-- The opcode map of R96: a word decodes to the row of instruction `i` exactly when `w AND mask = match`, so rows are
disjoint, and to nothing exactly when no row matches. -/
def Obligations.DecodeFollowsOpcodeMap : Prop :=
  ∀ w : Word,
    (∀ i : Instr, (∃ j, decodeWord w = some j ∧ opcodeRow j = opcodeRow i)
      ↔ w &&& (opcodeRow i).2 = (opcodeRow i).1) ∧
    (decodeWord w = none ↔ ∀ i : Instr, w &&& (opcodeRow i).2 ≠ (opcodeRow i).1)

/-- The illegal words are exactly R97's family lists (the 5xyN and 9xyN members are decision D11, log entry 12). -/
def Obligations.IllegalWordsAreTheListedFamilies : Prop :=
  ∀ w : Word, decodeWord w = none ↔ illegalWord w = true

/-- The byte decoder reads an instruction's two bytes, the high byte first, and leaves the rest (20_memory.md R65;
30_encoding.md R90). -/
def Obligations.BytesDecodeToTheirInstruction : Prop :=
  ∀ (i : Instr) (rest : List Byte), decodeBytes (encodeBytes i ++ rest) = .ok (i, rest)

/-- Words written out bit by bit from the patterns of R96 decode to their instructions (sanity). -/
def Obligations.SpecWordsDecode : Prop :=
  decodeWord 0b0000000011100000 = some .cls ∧
  decodeWord 0b0010001000000110 = some (.call 0x206) ∧
  decodeWord 0b1000000100100111 = some (.subnReg 1 2) ∧
  decodeWord 0b1101000100100101 = some (.drw 1 2 5) ∧
  decodeWord 0b1110010110100001 = some (.sknp 5) ∧
  decodeWord 0b1111001101010101 = some (.stRegs 3) ∧
  decodeWord 0b0101000100100001 = none

/-! ### Fetch and cycle -/

/-- The two-byte read of R64: big-endian, the byte at the lower address checked first. -/
def Obligations.FetchReadsBigEndian : Prop :=
  ∀ (s : State) (a : Nat),
    (a ≤ 4094 → ∃ w, memRead2 s a = .ok w ∧ w.toNat = (s.byteAt a).toNat * 256 + (s.byteAt (a + 1)).toNat) ∧
    (a = 4095 → memRead2 s a = .error (.raised (.addressOutOfRange 4096))) ∧
    (a > 4095 → memRead2 s a = .error (.raised (.addressOutOfRange a)))

/-- A step whose transaction is a cycle runs the instruction that the bytes at pc decode to, on the state with pc
advanced past it, the draw signal cleared and the transaction used up (40_cycle.md R111, R113, R114, R118; the fields
`schedule` and `drew` are the model's, log entries 3 and 4). -/
def Obligations.StepRunsDecodedInstruction : Prop :=
  ∀ (s : State) (i : Instr), s.halted = none → s.nextIsCycle → s.pc.toNat ≤ 0xFFE →
    decodeWord (wordOfBytes (s.byteAt s.pc.toNat) (s.byteAt (s.pc.toNat + 1))) = some i → i.wellFormed = true →
    step s = exec i { s with pc := s.pc + 2, drew := false, schedule := s.schedule.tail }

/-- A fetch above 0xFFE raises AddressOutOfRange of the first byte above 4095 and commits nothing (40_cycle.md R113;
the all-or-nothing latch is decision D9, log entry 1). -/
def Obligations.FetchErrorLatches : Prop :=
  ∀ s : State, s.halted = none → s.nextIsCycle →
    (s.pc.toNat = 0xFFF → step s = .next
      { s with drew := false, schedule := s.schedule.tail, halted := some (.addressOutOfRange 4096) }) ∧
    (s.pc.toNat > 0xFFF → step s = .next
      { s with drew := false, schedule := s.schedule.tail, halted := some (.addressOutOfRange s.pc.toNat) })

/-- A fetched word that decodes to nothing raises UnknownOpcode with that word, the fetch advance undone
(40_cycle.md R118; 30_encoding.md R97; the latch is decision D9, log entry 1). -/
def Obligations.UnknownWordLatches : Prop :=
  ∀ (s : State) (w : Word), s.halted = none → s.nextIsCycle → s.pc.toNat ≤ 0xFFE →
    w = wordOfBytes (s.byteAt s.pc.toNat) (s.byteAt (s.pc.toNat + 1)) → decodeWord w = none →
    step s = .next { s with drew := false, schedule := s.schedule.tail, halted := some (.unknownOpcode w) }

/-- A halted machine has no step but reset (60_exceptions.md R254; decision D20, log entry 2). -/
def Obligations.HaltedAcceptsResetOnly : Prop :=
  ∀ (s : State) (e : Error), s.halted = some e →
    (s.schedule.head? = some .reset → ∃ t, step s = .next t ∧ t.halted = none) ∧
    (s.schedule.head? ≠ some .reset → step s = .fault (.halted e))

/-- An instruction that raises an error commits nothing: the state is the one before the cycle, fetch advance undone,
with the error latched (40_cycle.md R112; decision D9, log entry 1). -/
def Obligations.ErrorsCommitNothing : Prop :=
  ∀ (i : Instr) (s t : State) (e : Error), s.halted = none → exec i s = .next t → t.halted = some e →
    t = { s with pc := s.pc - 2, halted := some e }

/-- The only errors instructions raise, and when (60_exceptions.md R250, R251; payloads decision D10, log entry 10). -/
def Obligations.ErrorCausesAreTheListed : Prop :=
  ∀ (i : Instr) (s t : State) (e : Error), s.halted = none → exec i s = .next t → t.halted = some e →
    (e = .stackOverflow ∧ s.sp.val = 16 ∧ ∃ nnn, i = .call nnn) ∨
    (e = .stackUnderflow ∧ s.sp.val = 0 ∧ i = .ret) ∨
    (∃ a, e = .addressOutOfRange a ∧ a > 4095 ∧
      ((∃ x y n, i = .drw x y n) ∨ (∃ x, i = .ldB x) ∨ (∃ x, i = .stRegs x) ∨ (∃ x, i = .ldRegs x)))

/-- No instruction faults, and the only refusal is a store to the font under FONT_WRITE = Refuse (40_cycle.md R123;
decision D8, log entry 7). -/
def Obligations.RefusalIsFontWriteOnly : Prop :=
  ∀ (i : Instr) (s : State),
    (∀ r, exec i s ≠ .fault r) ∧
    (∀ r, exec i s = .refused r → r = .fontWrite s.i.toNat ∧ s.i.toNat ≤ 0x04F ∧ s.fontWrite = .refuse ∧
      ((∃ x, i = .ldB x) ∨ (∃ x, i = .stRegs x)))

/-! ### Control transfer -/

/-- R130: the jump takes its target as it is, writes no flag and raises nothing; a target above 0xFFE makes the next
fetch raise AddressOutOfRange of 0x1000. -/
def Obligations.JumpSetsPc : Prop :=
  ∀ (nnn : Addr12) (s : State),
    decodeWord (0x1#4 ++ nnn) = some (.jp nnn) ∧
    ∃ t, exec (.jp nnn) s = .next t ∧ t.pc.toNat = nnn.toNat ∧ t.reg 0xF = s.reg 0xF ∧
      t.halted = s.halted ∧ (t.pc.toNat > 0xFFE → fetch t = .error (.raised (.addressOutOfRange 4096)))

/-- R140: the target is nnn + V0 whatever the x digit holds, not reduced to 12 bits (the spec derives that bound). -/
def Obligations.OffsetJumpAddsV0 : Prop :=
  ∀ (nnn : Addr12) (s : State),
    decodeWord (0xB#4 ++ nnn) = some (.jpV0 nnn) ∧
    ∃ t, exec (.jpV0 nnn) s = .next t ∧ t.pc.toNat = nnn.toNat + (s.reg 0).toNat ∧ t.v = s.v

/-- R133: with SP below 16 the advanced pc is pushed and pc becomes nnn; at 16 StackOverflow is raised and nothing
committed (the latch is decision D9, log entry 1). -/
def Obligations.CallPushesReturnAddress : Prop :=
  ∀ (nnn : Addr12) (s : State),
    decodeWord (0x2#4 ++ nnn) = some (.call nnn) ∧
    (s.sp.val < 16 → ∃ t, exec (.call nnn) s = .next t ∧ t.pc.toNat = nnn.toNat ∧ t.sp.val = s.sp.val + 1 ∧
      t.stack[s.sp.val]? = some s.pc ∧ (∀ k, k ≠ s.sp.val → t.stack[k]? = s.stack[k]?) ∧ t.halted = s.halted) ∧
    (s.sp.val = 16 → exec (.call nnn) s = .next { s with pc := s.pc - 2, halted := some .stackOverflow })

/-- R131: with SP above 0 the newest entry is popped into pc and keeps its value (decision D26, log entry 18); at 0
StackUnderflow is raised and nothing committed (decision D9, log entry 1). -/
def Obligations.ReturnPopsStack : Prop :=
  ∀ s : State,
    decodeWord 0x00EE = some .ret ∧
    (0 < s.sp.val → ∃ t, exec .ret s = .next t ∧ s.stack[s.sp.val - 1]? = some t.pc ∧ t.sp.val + 1 = s.sp.val ∧
      t.stack = s.stack ∧ t.halted = s.halted) ∧
    (s.sp.val = 0 → exec .ret s = .next { s with pc := s.pc - 2, halted := some .stackUnderflow })

/-- R134: nested calls that fit the stack, followed by as many returns, come back to the instruction after the
outermost call with SP as before; one call more than fits raises StackOverflow. Each instruction runs on the pc
advanced past it. -/
def Obligations.CallNestingReturnsOrOverflows : Prop :=
  ∀ (ns : List Addr12) (s : State), ns ≠ [] →
    (s.sp.val + ns.length ≤ 16 →
      ∃ t, runInstrs (ns.map .call ++ List.replicate ns.length .ret) s = .next t ∧ t.pc = s.pc + 2 ∧ t.sp = s.sp ∧
        t.v = s.v ∧ t.halted = s.halted) ∧
    (s.sp.val + ns.length = 17 →
      ∃ t, runInstrs (ns.map .call) s = .next t ∧ t.halted = some .stackOverflow ∧ t.sp.val = 16)

/-- R135, R136: the immediate skips. -/
def Obligations.SkipOnImmediate : Prop :=
  ∀ (x : Nibble) (kk : Byte) (s : State),
    decodeWord (0x3#4 ++ x ++ kk) = some (.seImm x kk) ∧ decodeWord (0x4#4 ++ x ++ kk) = some (.sneImm x kk) ∧
    (∃ t, exec (.seImm x kk) s = .next t ∧ t.pc = (if s.reg x = kk then s.pc + 2 else s.pc) ∧
      t.reg 0xF = s.reg 0xF ∧ t.halted = s.halted) ∧
    (∃ t, exec (.sneImm x kk) s = .next t ∧ t.pc = (if s.reg x = kk then s.pc else s.pc + 2) ∧
      t.reg 0xF = s.reg 0xF ∧ t.halted = s.halted)

/-- R137, R138: the register skips; with a low nibble other than 0 the word is no instruction (decision D11, log
entry 12). -/
def Obligations.SkipOnRegisters : Prop :=
  ∀ (x y n : Nibble) (s : State),
    decodeWord (0x5#4 ++ x ++ y ++ n) = (if n = 0 then some (.seReg x y) else none) ∧
    decodeWord (0x9#4 ++ x ++ y ++ n) = (if n = 0 then some (.sneReg x y) else none) ∧
    (∃ t, exec (.seReg x y) s = .next t ∧ t.pc = (if s.reg x = s.reg y then s.pc + 2 else s.pc) ∧ t.v = s.v) ∧
    (∃ t, exec (.sneReg x y) s = .next t ∧ t.pc = (if s.reg x = s.reg y then s.pc else s.pc + 2) ∧ t.v = s.v)

/-- R225, R226: the key skips look at the key whose number is the low nibble of Vx. -/
def Obligations.SkipOnKey : Prop :=
  ∀ (x k : Nibble) (s : State), k.toNat = (s.reg x).toNat % 16 →
    decodeWord (0xE#4 ++ x ++ 0x9E#8) = some (.skp x) ∧ decodeWord (0xE#4 ++ x ++ 0xA1#8) = some (.sknp x) ∧
    (∃ t, exec (.skp x) s = .next t ∧ t.pc = (if s.keyPressed k = true then s.pc + 2 else s.pc) ∧
      t.reg 0xF = s.reg 0xF ∧ t.halted = s.halted) ∧
    (∃ t, exec (.sknp x) s = .next t ∧ t.pc = (if s.keyPressed k = true then s.pc else s.pc + 2) ∧
      t.reg 0xF = s.reg 0xF ∧ t.halted = s.halted)

/-! ### Registers and arithmetic -/

/-- R153, R154, R155: load an immediate, add an immediate without a flag, copy a register. -/
def Obligations.LoadsAndImmediateAdd : Prop :=
  ∀ (x y : Nibble) (kk : Byte) (s : State),
    decodeWord (0x6#4 ++ x ++ kk) = some (.ldImm x kk) ∧ decodeWord (0x7#4 ++ x ++ kk) = some (.addImm x kk) ∧
    decodeWord (0x8#4 ++ x ++ y ++ 0x0#4) = some (.ldReg x y) ∧
    (∃ t, exec (.ldImm x kk) s = .next t ∧ t.reg x = kk ∧ (x ≠ 0xF → t.reg 0xF = s.reg 0xF) ∧ t.halted = s.halted) ∧
    (∃ t, exec (.addImm x kk) s = .next t ∧ (t.reg x).toNat = ((s.reg x).toNat + kk.toNat) % 256 ∧
      (x ≠ 0xF → t.reg 0xF = s.reg 0xF) ∧ t.halted = s.halted) ∧
    (∃ t, exec (.ldReg x y) s = .next t ∧ t.reg x = s.reg y ∧ (x ≠ 0xF → t.reg 0xF = s.reg 0xF) ∧
      t.halted = s.halted)

/-- R156 to R159: the logic instructions clear VF after their result, so VF is 0 also when x = F. -/
def Obligations.LogicClearsVF : Prop :=
  ∀ (x y : Nibble) (s : State),
    decodeWord (0x8#4 ++ x ++ y ++ 0x1#4) = some (.orReg x y) ∧
    decodeWord (0x8#4 ++ x ++ y ++ 0x2#4) = some (.andReg x y) ∧
    decodeWord (0x8#4 ++ x ++ y ++ 0x3#4) = some (.xorReg x y) ∧
    (∃ t, exec (.orReg x y) s = .next t ∧ (x ≠ 0xF → t.reg x = s.reg x ||| s.reg y) ∧ t.reg 0xF = 0 ∧
      t.halted = s.halted) ∧
    (∃ t, exec (.andReg x y) s = .next t ∧ (x ≠ 0xF → t.reg x = s.reg x &&& s.reg y) ∧ t.reg 0xF = 0 ∧
      t.halted = s.halted) ∧
    (∃ t, exec (.xorReg x y) s = .next t ∧ (x ≠ 0xF → t.reg x = s.reg x ^^^ s.reg y) ∧ t.reg 0xF = 0 ∧
      t.halted = s.halted)

/-- R160: the sum modulo 256, and VF = 1 iff the true sum exceeds 255, also when x = F. -/
def Obligations.AddSetsCarry : Prop :=
  ∀ (x y : Nibble) (s : State),
    decodeWord (0x8#4 ++ x ++ y ++ 0x4#4) = some (.addReg x y) ∧
    ∃ t, exec (.addReg x y) s = .next t ∧
      (x ≠ 0xF → (t.reg x).toNat = ((s.reg x).toNat + (s.reg y).toNat) % 256) ∧
      (t.reg 0xF).toNat = (if (s.reg x).toNat + (s.reg y).toNat > 255 then 1 else 0) ∧ t.halted = s.halted

/-- R161, R163: the difference modulo 256, and VF = 1 iff the minuend is at least the subtrahend, also when x = F. -/
def Obligations.SubtractsSetNoBorrow : Prop :=
  ∀ (x y : Nibble) (s : State),
    decodeWord (0x8#4 ++ x ++ y ++ 0x5#4) = some (.subReg x y) ∧
    decodeWord (0x8#4 ++ x ++ y ++ 0x7#4) = some (.subnReg x y) ∧
    (∃ t, exec (.subReg x y) s = .next t ∧
      (x ≠ 0xF → ((t.reg x).toNat : Int) = ((s.reg x).toNat - (s.reg y).toNat : Int) % 256) ∧
      (t.reg 0xF).toNat = (if (s.reg x).toNat ≥ (s.reg y).toNat then 1 else 0) ∧ t.halted = s.halted) ∧
    (∃ t, exec (.subnReg x y) s = .next t ∧
      (x ≠ 0xF → ((t.reg x).toNat : Int) = ((s.reg y).toNat - (s.reg x).toNat : Int) % 256) ∧
      (t.reg 0xF).toNat = (if (s.reg y).toNat ≥ (s.reg x).toNat then 1 else 0) ∧ t.halted = s.halted)

/-- R162, R164, R165: both shifts take Vy by one place and VF gets the bit shifted out, also when x = F. -/
def Obligations.ShiftsTakeVy : Prop :=
  ∀ (x y : Nibble) (s : State),
    decodeWord (0x8#4 ++ x ++ y ++ 0x6#4) = some (.shrReg x y) ∧
    decodeWord (0x8#4 ++ x ++ y ++ 0xE#4) = some (.shlReg x y) ∧
    (∃ t, exec (.shrReg x y) s = .next t ∧ (x ≠ 0xF → (t.reg x).toNat = (s.reg y).toNat / 2) ∧
      (t.reg 0xF).toNat = (s.reg y).toNat % 2 ∧ (y ≠ x → y ≠ 0xF → t.reg y = s.reg y) ∧ t.halted = s.halted) ∧
    (∃ t, exec (.shlReg x y) s = .next t ∧ (x ≠ 0xF → (t.reg x).toNat = (s.reg y).toNat * 2 % 256) ∧
      (t.reg 0xF).toNat = (s.reg y).toNat / 128 ∧ (y ≠ x → y ≠ 0xF → t.reg y = s.reg y) ∧ t.halted = s.halted)

/-- R166, R167: the random byte AND kk. The byte is the free value `Config.rand`, fresh for each draw (decision D21,
log entry 5): the statement holds for every sequence of bytes. -/
def Obligations.RandomByteIsMasked : Prop :=
  ∀ (x : Nibble) (kk : Byte) (s : State),
    decodeWord (0xC#4 ++ x ++ kk) = some (.rnd x kk) ∧
    ∃ t, exec (.rnd x kk) s = .next t ∧ t.reg x = Config.rand s.draws &&& kk ∧ t.draws = s.draws + 1 ∧
      (∀ b, kk.getLsbD b = false → (t.reg x).getLsbD b = false) ∧ (x ≠ 0xF → t.reg 0xF = s.reg 0xF)

/-! ### The index register and memory -/

/-- R185, R186, R187: the three instructions that write I and touch no memory; none writes a flag. -/
def Obligations.IndexRegisterWrites : Prop :=
  ∀ (nnn : Addr12) (x : Nibble) (s : State),
    decodeWord (0xA#4 ++ nnn) = some (.ldI nnn) ∧ decodeWord (0xF#4 ++ x ++ 0x1E#8) = some (.addI x) ∧
    decodeWord (0xF#4 ++ x ++ 0x29#8) = some (.ldF x) ∧
    (∃ t, exec (.ldI nnn) s = .next t ∧ t.i.toNat = nnn.toNat ∧ t.reg 0xF = s.reg 0xF ∧ t.halted = s.halted) ∧
    (∃ t, exec (.addI x) s = .next t ∧ t.i.toNat = (s.i.toNat + (s.reg x).toNat) % 65536 ∧
      t.reg 0xF = s.reg 0xF ∧ t.halted = s.halted) ∧
    (∃ t, exec (.ldF x) s = .next t ∧ t.i.toNat = (s.reg x).toNat % 16 * 5 ∧ t.reg 0xF = s.reg 0xF ∧
      t.halted = s.halted)

/-- R188: where the three bytes are backed, and outside the font or FONT_WRITE = Store (decision D8, log entry 7), the
decimal digits of Vx are stored at I, I + 1, I + 2 and I is unchanged; every other byte is unchanged. -/
def Obligations.DecimalDigitsStored : Prop :=
  ∀ (x : Nibble) (s : State),
    decodeWord (0xF#4 ++ x ++ 0x33#8) = some (.ldB x) ∧
    (s.i.toNat + 3 ≤ 4096 → (0x04F < s.i.toNat ∨ s.fontWrite = .store) →
      ∃ t, exec (.ldB x) s = .next t ∧
        (t.byteAt s.i.toNat).toNat = (s.reg x).toNat / 100 ∧
        (t.byteAt (s.i.toNat + 1)).toNat = (s.reg x).toNat / 10 % 10 ∧
        (t.byteAt (s.i.toNat + 2)).toNat = (s.reg x).toNat % 10 ∧
        t.i = s.i ∧ t.halted = s.halted ∧
        ∀ a, a < s.i.toNat ∨ s.i.toNat + 3 ≤ a → t.byteAt a = s.byteAt a)

/-- R190: where the x + 1 bytes are backed, and outside the font or FONT_WRITE = Store (decision D8, log entry 7),
V0..Vx are stored from I up and I advances past them; every other byte is unchanged. -/
def Obligations.RegistersStored : Prop :=
  ∀ (x : Nibble) (s : State),
    decodeWord (0xF#4 ++ x ++ 0x55#8) = some (.stRegs x) ∧
    (s.i.toNat + (x.toNat + 1) ≤ 4096 → (0x04F < s.i.toNat ∨ s.fontWrite = .store) →
      ∃ t, exec (.stRegs x) s = .next t ∧
        (∀ r : Nibble, r ≤ x → t.byteAt (s.i.toNat + r.toNat) = s.reg r) ∧
        t.i.toNat = s.i.toNat + (x.toNat + 1) ∧ t.v = s.v ∧ t.halted = s.halted ∧
        ∀ a, a < s.i.toNat ∨ s.i.toNat + (x.toNat + 1) ≤ a → t.byteAt a = s.byteAt a)

/-- R191: where the x + 1 bytes are backed, the font included, V0..Vx are loaded from I up and I advances past them;
every other register is unchanged (decision D12). -/
def Obligations.RegistersLoaded : Prop :=
  ∀ (x : Nibble) (s : State),
    decodeWord (0xF#4 ++ x ++ 0x65#8) = some (.ldRegs x) ∧
    (s.i.toNat + (x.toNat + 1) ≤ 4096 →
      ∃ t, exec (.ldRegs x) s = .next t ∧
        (∀ r : Nibble, t.reg r = if r ≤ x then s.byteAt (s.i.toNat + r.toNat) else s.reg r) ∧
        t.i.toNat = s.i.toNat + (x.toNat + 1) ∧ t.mem = s.mem ∧ t.halted = s.halted)

/-- R180, R188, R190, R191, R205: an access that runs past 4095 raises AddressOutOfRange of the first address above
4095, and nothing is committed (decisions D9 and D10, log entries 1 and 10); a store that starts in the font under
FONT_WRITE = Refuse is refused (decision D8, log entry 7). -/
def Obligations.AccessesThatStop : Prop :=
  ∀ (x y n : Nibble) (s : State),
    (s.i.toNat + 3 > 4096 → exec (.ldB x) s = .next
      { s with pc := s.pc - 2, halted := some (.addressOutOfRange (max s.i.toNat 4096)) }) ∧
    (s.i.toNat + (x.toNat + 1) > 4096 → exec (.stRegs x) s = .next
      { s with pc := s.pc - 2, halted := some (.addressOutOfRange (max s.i.toNat 4096)) }) ∧
    (s.i.toNat + (x.toNat + 1) > 4096 → exec (.ldRegs x) s = .next
      { s with pc := s.pc - 2, halted := some (.addressOutOfRange (max s.i.toNat 4096)) }) ∧
    (s.vblank = false → 0 < n.toNat → s.i.toNat + n.toNat > 4096 → exec (.drw x y n) s = .next
      { s with pc := s.pc - 2, halted := some (.addressOutOfRange (max s.i.toNat 4096)) }) ∧
    (s.i.toNat ≤ 0x04F → s.fontWrite = .refuse →
      exec (.ldB x) s = .refused (.fontWrite s.i.toNat) ∧ exec (.stRegs x) s = .refused (.fontWrite s.i.toNat))

/-! ### The display -/

/-- R200, R202: every pixel is off; VF, the draw lock and the draw signal are as before (the spec derives that 00E0
ignores the lock). -/
def Obligations.ClearTurnsPixelsOff : Prop :=
  ∀ s : State,
    decodeWord 0x00E0 = some .cls ∧
    ∃ t, exec .cls s = .next t ∧ (∀ px py, Grid.get t.pix px py = false) ∧ t.v = s.v ∧ t.vblank = s.vblank ∧
      t.drew = s.drew

/-- R205: with the lock open, n rows from I are drawn at (Vx, Vy), VF is the collision, the lock is set and the draw is
signalled; with the lock set, pc is rolled back and nothing else changes, whatever I holds. -/
def Obligations.DrawOrRollBack : Prop :=
  ∀ (x y n : Nibble) (s : State),
    decodeWord (0xD#4 ++ x ++ y ++ n) = some (.drw x y n) ∧
    (s.vblank = false → (n.toNat = 0 ∨ s.i.toNat + n.toNat ≤ 4096) →
      ∃ t, exec (.drw x y n) s = .next t ∧
        t.pix = (drawSprite s.pix (s.reg x).toNat (s.reg y).toNat (s.bytesFrom s.i.toNat n.toNat)).2 ∧
        (t.reg 0xF).toNat =
          (if (drawSprite s.pix (s.reg x).toNat (s.reg y).toNat (s.bytesFrom s.i.toNat n.toNat)).1 = true
            then 1 else 0) ∧
        t.vblank = true ∧ t.drew = true ∧ t.i = s.i ∧ t.pc = s.pc ∧ t.mem = s.mem ∧ t.halted = s.halted) ∧
    (s.vblank = true → exec (.drw x y n) s = .next { s with pc := s.pc - 2 })

/-- R203, R204, R206: the loops of draw_sprite in closed form, for at most 32 rows: each pixel is XORed with the sprite
bit that the wrapped sprite lays over it, and the collision signal is set exactly when some pixel goes from on to off. -/
def Obligations.SpriteClosedForm : Prop :=
  ∀ (g : Grid) (x y : Nat) (rows : List Byte), rows.length ≤ 32 →
    (∀ px py, Grid.get (drawSprite g x y rows).2 px py = (Grid.get g px py ^^ spriteBit x y rows px py)) ∧
    ((drawSprite g x y rows).1 = true ↔
      ∃ px py, px < 64 ∧ py < 32 ∧ Grid.get g px py = true ∧ spriteBit x y rows px py = true)

/-- R208 for every sprite: drawing the same sprite twice restores the display, and on a blank display the second draw
collides exactly when some row is not zero. -/
def Obligations.DrawTwiceRestores : Prop :=
  ∀ (g : Grid) (x y : Nat) (rows : List Byte), rows.length ≤ 32 →
    (drawSprite (drawSprite g x y rows).2 x y rows).2 = g ∧
    (drawSprite (drawSprite Grid.blank x y rows).2 x y rows).1 = rows.any (fun b => b != 0)

/-- R207: among any number of steps that hold neither a tick nor a reset, at most one draws. -/
def Obligations.AtMostOneDrawBetweenTicks : Prop :=
  ∀ (n : Nat) (s : State), noTickWithin n s → drawsWithin n s ≤ 1

/-- R210: the linear buffer has 2048 entries, row-major. -/
def Obligations.LinearBufferRowMajor : Prop :=
  ∀ s : State, (linearBuffer s).length = 2048 ∧
    ∀ px py, px < 64 → py < 32 → (linearBuffer s)[py * 64 + px]? = some (Grid.get s.pix px py)

/-! ### Keyboard and timers -/

/-- R222: the lowest-indexed pressed key, or none if no key is pressed. -/
def Obligations.LowestPressedKey : Prop :=
  ∀ s : State,
    (∀ k : Nibble, lowestPressed s = some k ↔ s.keyPressed k = true ∧ ∀ j : Nibble, j < k → s.keyPressed j = false) ∧
    (lowestPressed s = none ↔ ∀ j : Nibble, s.keyPressed j = false)

/-- R232 and the table R233 (which the spec derives): every row of the key wait. -/
def Obligations.KeyWaitTable : Prop :=
  ∀ (x : Nibble) (s : State),
    decodeWord (0xF#4 ++ x ++ 0x0A#8) = some (.ldVxK x) ∧
    (s.wait = .running ∨ s.wait = .awaitingKeyPress →
      ((∀ k : Nibble, s.keyPressed k = false) →
        exec (.ldVxK x) s = .next { s with pc := s.pc - 2, wait := .awaitingKeyPress }) ∧
      (∀ k : Nibble, s.keyPressed k = true → (∀ j : Nibble, j < k → s.keyPressed j = false) →
        exec (.ldVxK x) s = .next { s with pc := s.pc - 2, wait := .awaitingKeyRelease k })) ∧
    (∀ k : Nibble, s.wait = .awaitingKeyRelease k →
      (s.keyPressed k = true → exec (.ldVxK x) s = .next { s with pc := s.pc - 2 }) ∧
      (s.keyPressed k = false → ∃ t, exec (.ldVxK x) s = .next t ∧ (t.reg x).toNat = k.toNat ∧ t.wait = .running ∧
        t.pc = s.pc ∧ ∀ r, r ≠ x → t.reg r = s.reg r))

/-- R234, as a run: from a machine at an Fx0A with no key held, a cycle, a press of k, a cycle, its release and a cycle
end with Vx = k, pc past the instruction once, and no wait. -/
def Obligations.KeyWaitCompletes : Prop :=
  ∀ (s : State) (x k : Nibble), s.halted = none → s.wait = .running → (∀ j : Nibble, s.keyPressed j = false) →
    s.pc.toNat ≤ 0xFFE →
    decodeWord (wordOfBytes (s.byteAt s.pc.toNat) (s.byteAt (s.pc.toNat + 1))) = some (.ldVxK x) →
    s.schedule = [.cycle, .setKey k true, .cycle, .setKey k false, .cycle] →
    ∃ t, Sys2Proof.core.run 5 s = .next t ∧ (t.reg x).toNat = k.toNat ∧ (∀ r, r ≠ x → t.reg r = s.reg r) ∧
      t.pc = s.pc + 2 ∧ t.wait = .running ∧ t.halted = none ∧ t.schedule = []

/-- R235, R236, and R240, R241 (which the spec derives), R243 for what follows: the timers are written from Vx, no flag
is written; after Vx ticks DT is 0, and the tone is audible for Vx ticks. -/
def Obligations.TimerWrites : Prop :=
  ∀ (x : Nibble) (s : State),
    decodeWord (0xF#4 ++ x ++ 0x15#8) = some (.ldDtVx x) ∧ decodeWord (0xF#4 ++ x ++ 0x18#8) = some (.ldStVx x) ∧
    (∃ t, exec (.ldDtVx x) s = .next t ∧ t.dt = s.reg x ∧ t.reg 0xF = s.reg 0xF ∧ t.halted = s.halted ∧
      (State.tickTimers^[(s.reg x).toNat] t).dt = 0) ∧
    (∃ t, exec (.ldStVx x) s = .next t ∧ t.st = s.reg x ∧ t.reg 0xF = s.reg 0xF ∧ t.halted = s.halted ∧
      ∀ k, tone (State.tickTimers^[k] t) = true ↔ k < (s.reg x).toNat)

/-- R230: the delay timer is read into Vx. -/
def Obligations.DelayTimerRead : Prop :=
  ∀ (x : Nibble) (s : State),
    decodeWord (0xF#4 ++ x ++ 0x07#8) = some (.ldVxDt x) ∧
    ∃ t, exec (.ldVxDt x) s = .next t ∧ t.reg x = s.dt ∧ t.dt = s.dt ∧ ∀ r, r ≠ x → t.reg r = s.reg r

/-- R240: the tick decrements both timers, floored at 0, clears the draw lock, and changes nothing else. -/
def Obligations.TickCountsDown : Prop :=
  ∀ (s : State) (rest : List Transaction), s.halted = none → s.schedule = .tickTimers :: rest →
    ∃ t, step s = .next t ∧ t.dt.toNat = s.dt.toNat - 1 ∧ t.st.toNat = s.st.toNat - 1 ∧ t.vblank = false ∧
      t = { s with dt := t.dt, st := t.st, vblank := t.vblank, schedule := rest }

/-- R241 (which the spec derives): after n ticks a timer is n lower, floored at 0. -/
def Obligations.TimersReachZero : Prop :=
  ∀ (n : Nat) (s : State),
    (State.tickTimers^[n] s).dt.toNat = s.dt.toNat - n ∧ (State.tickTimers^[n] s).st.toNat = s.st.toNat - n

/-! ### The host's transactions and reset -/

/-- R220, R211: set_key changes one key slot and nothing else, set_pixel one pixel modulo the grid and nothing else (the
port widths are decisions D17 and D25, log entry 17). -/
def Obligations.HostPortsChangeOnePlace : Prop :=
  ∀ (s : State) (rest : List Transaction), s.halted = none →
    (∀ (k : Nibble) (p : Bool), s.schedule = .setKey k p :: rest →
      ∃ t, step s = .next t ∧ (∀ j : Nibble, t.keyPressed j = if j = k then p else s.keyPressed j) ∧
        t = { s with key := t.key, schedule := rest }) ∧
    (∀ (px py : Nat) (on : Bool), s.schedule = .setPixel px py on :: rest →
      ∃ t, step s = .next t ∧ (∀ qx qy, getPixel t qx qy
          = if qx % 64 = px % 64 ∧ qy % 32 = py % 32 then on else getPixel s qx qy) ∧
        t = { s with pix := t.pix, schedule := rest })

/-- R76: a ROM of at most 3584 bytes is copied to 0x200 and no other byte changes; a longer one raises RomTooLarge and
writes nothing (decision D19, log entry 16). -/
def Obligations.LoadCopiesRom : Prop :=
  ∀ (s : State) (rom : List Byte) (rest : List Transaction), s.halted = none → s.schedule = .load rom :: rest →
    (rom.length ≤ 3584 → ∃ t, step s = .next t ∧
      (∀ a, t.byteAt a = if 0x200 ≤ a then (rom[a - 0x200]?).getD (s.byteAt a) else s.byteAt a) ∧
      t = { s with mem := t.mem, schedule := rest }) ∧
    (rom.length > 3584 →
      step s = .next { s with halted := some (.romTooLarge rom.length), schedule := rest })

/-- R46, R280: the state after reset, and after a reset transaction in any state, halted or not, is the table of R46
(its zeros are decisions D2 to D6, log entry 8); at State.reset FONT_WRITE is Refuse, the default of 20_memory.md R69
(decision D8, log entry 7); over a reset transaction the parameters and the random draws go on (log entry 22). -/
def Obligations.ResetHoldsTable : Prop :=
  State.reset.IsFresh ∧ State.reset.fontWrite = .refuse ∧
  ∀ (s : State) (rest : List Transaction), s.schedule = .reset :: rest →
    ∃ t, step s = .next t ∧ t.IsFresh ∧ t.font = s.font ∧ t.fontWrite = s.fontWrite ∧ t.draws = s.draws ∧
      t.schedule = rest

/-! ### Invariants -/

/-- Every step from a state with canonical memory, pc at most 0x10FE and valid return addresses at most 0x1000 leads to
such a state (10_state.md R28, R60; the canonical form is the model's, log entry 9). -/
def Obligations.StepKeepsInvariant : Prop :=
  ∀ s t : State, s.Inv → step s = .next t → t.Inv

/-- The state after reset meets the invariant, and its font bytes are FONT (10_state.md R46). -/
def Obligations.ResetMeetsInvariants : Prop :=
  State.reset.Inv ∧ State.reset.FontIntact

/-- Under FONT_WRITE = Refuse (decision D8, log entry 7) no step changes a byte of the font region: it is written once
and never mutated (20_memory.md R68, R75). -/
def Obligations.FontStaysIntact : Prop :=
  ∀ s t : State, s.fontWrite = .refuse → s.FontIntact → step s = .next t →
    t.FontIntact ∧ t.fontWrite = .refuse ∧ t.font = s.font

/-! ### Frames -/

/-- Every register is unchanged except the destination and, where the rule writes a flag, VF (10_state.md R22, R23;
40_cycle.md R120, decision D12, log entry 13). -/
def Obligations.FrameOfRegisters : Prop :=
  ∀ (i : Instr) (s t : State) (r : Nibble), exec i s = .next t → writesReg i r = false → t.reg r = s.reg r

/-- Every byte of memory is unchanged except the bytes an instruction stores, which start at the effective address of
its access: none but for Fx33 and Fx55 (20_memory.md R67; 40_cycle.md R120, decision D12, log entry 13). -/
def Obligations.FrameOfMemory : Prop :=
  ∀ (i : Instr) (s t : State) (a : Nat), exec i s = .next t →
    a < effAddr s 0 ∨ effAddr s 0 + storedBytes i ≤ a → t.byteAt a = s.byteAt a

/-- Every other part of the state is written only by the instructions whose rules name it: I (R30), stack and SP (R33),
DT and ST (R36), the key wait (R39), the draw lock (R40), pixels, the random draws, the draw signal, the fault latch;
no instruction writes a key slot, FONT, FONT_WRITE or the schedule (40_cycle.md R120, decision D12, log entry 13). -/
def Obligations.FrameOfOtherParts : Prop :=
  ∀ (i : Instr) (s t : State), exec i s = .next t →
    (Part.i ∉ writesPart i → t.i = s.i) ∧
    (Part.stack ∉ writesPart i → t.stack = s.stack ∧ t.sp = s.sp) ∧
    (Part.dt ∉ writesPart i → t.dt = s.dt) ∧
    (Part.st ∉ writesPart i → t.st = s.st) ∧
    (Part.wait ∉ writesPart i → t.wait = s.wait) ∧
    (Part.vblank ∉ writesPart i → t.vblank = s.vblank) ∧
    (Part.pix ∉ writesPart i → t.pix = s.pix) ∧
    (Part.draws ∉ writesPart i → t.draws = s.draws) ∧
    (Part.drew ∉ writesPart i → t.drew = s.drew) ∧
    (Part.halted ∉ writesPart i → t.halted = s.halted) ∧
    t.key = s.key ∧ t.font = s.font ∧ t.fontWrite = s.fontWrite ∧ t.schedule = s.schedule

/-- The table of R116: pc after every successful instruction, where s.pc is a + 2. -/
def Obligations.PcAfterInstruction : Prop :=
  ∀ (i : Instr) (s t : State), s.halted = none → exec i s = .next t → t.halted = none → t.pc = pcAfter i s

/-! ### Isolation and the end of a run -/

/-- Only Fx0A reads the key wait (40_cycle.md R122, decision D16, log entry 15), and no instruction reads the sound
timer (10_state.md R36): changing it before an instruction only changes it after. -/
def Obligations.WaitAndSoundTimerUnread : Prop :=
  ∀ (i : Instr) (s : State),
    (∀ w : KeyWait, (∀ x, i ≠ .ldVxK x) →
      exec i { s with wait := w } = mapNext (fun t => { t with wait := w }) (exec i s)) ∧
    (∀ b : Byte, (∀ x, i ≠ .ldStVx x) →
      exec i { s with st := b } = mapNext (fun t => { t with st := b }) (exec i s))

/-- R293: at a jump to itself a cycle changes nothing but the draw signal of the last cycle, and the machine is still
there (the end condition is decision D27, log entry 21). -/
def Obligations.SelfJumpStays : Prop :=
  ∀ (s : State) (e : Addr12), s.running → s.nextIsCycle → s.atSelfJump e →
    step s = .next { s with drew := false, schedule := s.schedule.tail } ∧
    State.atSelfJump { s with drew := false, schedule := s.schedule.tail } e

/-! ### The host's duties -/

/-- R292: the duties of the host, as fairness assumptions (the model's form: log entry 29), make the waits end. Under a
host that keeps ticking and cycling a Dxyn whose rows are backed draws; under one that keeps cycling and delivers keys an
Fx0A completes with the number of a key. The host may do all else but reset and load. -/
def Obligations.HostDutiesEndWaits : Prop :=
  (∀ (h : HostBehaviour) (s : State) (x y n : Nibble), LeavesProgram h → KeepsTicking h → KeepsCycling h →
    s.At (.drw x y n) → (n.toNat = 0 ∨ s.i.toNat + n.toNat ≤ 4096) →
    ∃ m t, hostRun h m s = .next t ∧ t.pc = s.pc + 2 ∧ t.drew = true ∧ t.vblank = true ∧ t.i = s.i ∧
      t.halted = none ∧ ∀ r, r ≠ 0xF → t.reg r = s.reg r) ∧
  (∀ (h : HostBehaviour) (s : State) (x : Nibble), LeavesProgram h → KeepsCycling h → DeliversKeys h s.keyPressed →
    s.At (.ldVxK x) →
    ∃ m t, ∃ k : Nibble, hostRun h m s = .next t ∧ t.pc = s.pc + 2 ∧ t.wait = .running ∧
      (t.reg x).toNat = k.toNat ∧ t.halted = none ∧ ∀ r, r ≠ x → t.reg r = s.reg r)

/-- R292, the other way: without the duties the run goes on for ever and the wait does not end. Without ticks a blocked
Dxyn stays; without a key press an Fx0A stays; without cycles only timers, draw lock, keys and pixels can change. -/
def Obligations.WaitsGoOnWithoutDuties : Prop :=
  (∀ (h : HostBehaviour) (s : State) (x y n : Nibble), LeavesProgram h → (∀ m, h m ≠ some .tickTimers) →
    s.At (.drw x y n) → s.vblank = true →
    ∀ m, ∃ t, hostRun h m s = .next t ∧ t.At (.drw x y n) ∧ t.pc = s.pc ∧ t.vblank = true ∧ t.v = s.v) ∧
  (∀ (h : HostBehaviour) (s : State) (x : Nibble), LeavesProgram h → (∀ m k, h m ≠ some (.setKey k true)) →
    s.At (.ldVxK x) → (∀ k, s.keyPressed k = false) → (∀ k, s.wait ≠ .awaitingKeyRelease k) →
    ∀ m, ∃ t, hostRun h m s = .next t ∧ t.At (.ldVxK x) ∧ t.pc = s.pc ∧ t.v = s.v) ∧
  (∀ (h : HostBehaviour) (s : State), LeavesProgram h → (∀ m, h m ≠ some .cycle) → s.running →
    ∀ m, ∃ t, hostRun h m s = .next t ∧
      t = { s with dt := t.dt, st := t.st, vblank := t.vblank, key := t.key, pix := t.pix })
end

