-- ==== Sys2Proof/Laws/State.lean ====
section
/-! SUPPORT. What each state update does to each field of State: one lemma per field per update, so that no later
proof unfolds a record update. -/

namespace Sys2Proof.Machine

variable (s : State)

/-! ### State.advance -/

@[simp] theorem State.advance_v : s.advance.v = s.v := rfl
@[simp] theorem State.advance_i : s.advance.i = s.i := rfl
@[simp] theorem State.advance_pc : s.advance.pc = s.pc + 2 := rfl
@[simp] theorem State.advance_stack : s.advance.stack = s.stack := rfl
@[simp] theorem State.advance_sp : s.advance.sp = s.sp := rfl
@[simp] theorem State.advance_dt : s.advance.dt = s.dt := rfl
@[simp] theorem State.advance_st : s.advance.st = s.st := rfl
@[simp] theorem State.advance_wait : s.advance.wait = s.wait := rfl
@[simp] theorem State.advance_vblank : s.advance.vblank = s.vblank := rfl
@[simp] theorem State.advance_mem : s.advance.mem = s.mem := rfl
@[simp] theorem State.advance_pix : s.advance.pix = s.pix := rfl
@[simp] theorem State.advance_key : s.advance.key = s.key := rfl
@[simp] theorem State.advance_halted : s.advance.halted = s.halted := rfl
@[simp] theorem State.advance_font : s.advance.font = s.font := rfl
@[simp] theorem State.advance_fontWrite : s.advance.fontWrite = s.fontWrite := rfl
@[simp] theorem State.advance_draws : s.advance.draws = s.draws := rfl
@[simp] theorem State.advance_drew : s.advance.drew = s.drew := rfl
@[simp] theorem State.advance_schedule : s.advance.schedule = s.schedule := rfl

/-! ### State.rollback -/

@[simp] theorem State.rollback_v : s.rollback.v = s.v := rfl
@[simp] theorem State.rollback_i : s.rollback.i = s.i := rfl
@[simp] theorem State.rollback_pc : s.rollback.pc = s.pc - 2 := rfl
@[simp] theorem State.rollback_stack : s.rollback.stack = s.stack := rfl
@[simp] theorem State.rollback_sp : s.rollback.sp = s.sp := rfl
@[simp] theorem State.rollback_dt : s.rollback.dt = s.dt := rfl
@[simp] theorem State.rollback_st : s.rollback.st = s.st := rfl
@[simp] theorem State.rollback_wait : s.rollback.wait = s.wait := rfl
@[simp] theorem State.rollback_vblank : s.rollback.vblank = s.vblank := rfl
@[simp] theorem State.rollback_mem : s.rollback.mem = s.mem := rfl
@[simp] theorem State.rollback_pix : s.rollback.pix = s.pix := rfl
@[simp] theorem State.rollback_key : s.rollback.key = s.key := rfl
@[simp] theorem State.rollback_halted : s.rollback.halted = s.halted := rfl
@[simp] theorem State.rollback_font : s.rollback.font = s.font := rfl
@[simp] theorem State.rollback_fontWrite : s.rollback.fontWrite = s.fontWrite := rfl
@[simp] theorem State.rollback_draws : s.rollback.draws = s.draws := rfl
@[simp] theorem State.rollback_drew : s.rollback.drew = s.drew := rfl
@[simp] theorem State.rollback_schedule : s.rollback.schedule = s.schedule := rfl

/-! ### State.jumpTo -/

@[simp] theorem State.jumpTo_v (w : Word) : (s.jumpTo w).v = s.v := rfl
@[simp] theorem State.jumpTo_i (w : Word) : (s.jumpTo w).i = s.i := rfl
@[simp] theorem State.jumpTo_pc (w : Word) : (s.jumpTo w).pc = w := rfl
@[simp] theorem State.jumpTo_stack (w : Word) : (s.jumpTo w).stack = s.stack := rfl
@[simp] theorem State.jumpTo_sp (w : Word) : (s.jumpTo w).sp = s.sp := rfl
@[simp] theorem State.jumpTo_dt (w : Word) : (s.jumpTo w).dt = s.dt := rfl
@[simp] theorem State.jumpTo_st (w : Word) : (s.jumpTo w).st = s.st := rfl
@[simp] theorem State.jumpTo_wait (w : Word) : (s.jumpTo w).wait = s.wait := rfl
@[simp] theorem State.jumpTo_vblank (w : Word) : (s.jumpTo w).vblank = s.vblank := rfl
@[simp] theorem State.jumpTo_mem (w : Word) : (s.jumpTo w).mem = s.mem := rfl
@[simp] theorem State.jumpTo_pix (w : Word) : (s.jumpTo w).pix = s.pix := rfl
@[simp] theorem State.jumpTo_key (w : Word) : (s.jumpTo w).key = s.key := rfl
@[simp] theorem State.jumpTo_halted (w : Word) : (s.jumpTo w).halted = s.halted := rfl
@[simp] theorem State.jumpTo_font (w : Word) : (s.jumpTo w).font = s.font := rfl
@[simp] theorem State.jumpTo_fontWrite (w : Word) : (s.jumpTo w).fontWrite = s.fontWrite := rfl
@[simp] theorem State.jumpTo_draws (w : Word) : (s.jumpTo w).draws = s.draws := rfl
@[simp] theorem State.jumpTo_drew (w : Word) : (s.jumpTo w).drew = s.drew := rfl
@[simp] theorem State.jumpTo_schedule (w : Word) : (s.jumpTo w).schedule = s.schedule := rfl

/-! ### State.latch -/

@[simp] theorem State.latch_v (e : Error) : (s.latch e).v = s.v := rfl
@[simp] theorem State.latch_i (e : Error) : (s.latch e).i = s.i := rfl
@[simp] theorem State.latch_pc (e : Error) : (s.latch e).pc = s.pc := rfl
@[simp] theorem State.latch_stack (e : Error) : (s.latch e).stack = s.stack := rfl
@[simp] theorem State.latch_sp (e : Error) : (s.latch e).sp = s.sp := rfl
@[simp] theorem State.latch_dt (e : Error) : (s.latch e).dt = s.dt := rfl
@[simp] theorem State.latch_st (e : Error) : (s.latch e).st = s.st := rfl
@[simp] theorem State.latch_wait (e : Error) : (s.latch e).wait = s.wait := rfl
@[simp] theorem State.latch_vblank (e : Error) : (s.latch e).vblank = s.vblank := rfl
@[simp] theorem State.latch_mem (e : Error) : (s.latch e).mem = s.mem := rfl
@[simp] theorem State.latch_pix (e : Error) : (s.latch e).pix = s.pix := rfl
@[simp] theorem State.latch_key (e : Error) : (s.latch e).key = s.key := rfl
@[simp] theorem State.latch_halted (e : Error) : (s.latch e).halted = some e := rfl
@[simp] theorem State.latch_font (e : Error) : (s.latch e).font = s.font := rfl
@[simp] theorem State.latch_fontWrite (e : Error) : (s.latch e).fontWrite = s.fontWrite := rfl
@[simp] theorem State.latch_draws (e : Error) : (s.latch e).draws = s.draws := rfl
@[simp] theorem State.latch_drew (e : Error) : (s.latch e).drew = s.drew := rfl
@[simp] theorem State.latch_schedule (e : Error) : (s.latch e).schedule = s.schedule := rfl

/-! ### State.setReg -/

@[simp] theorem State.setReg_v (r : Nibble) (b : Byte) : (s.setReg r b).v = s.v.set r.toFin b := rfl
@[simp] theorem State.setReg_i (r : Nibble) (b : Byte) : (s.setReg r b).i = s.i := rfl
@[simp] theorem State.setReg_pc (r : Nibble) (b : Byte) : (s.setReg r b).pc = s.pc := rfl
@[simp] theorem State.setReg_stack (r : Nibble) (b : Byte) : (s.setReg r b).stack = s.stack := rfl
@[simp] theorem State.setReg_sp (r : Nibble) (b : Byte) : (s.setReg r b).sp = s.sp := rfl
@[simp] theorem State.setReg_dt (r : Nibble) (b : Byte) : (s.setReg r b).dt = s.dt := rfl
@[simp] theorem State.setReg_st (r : Nibble) (b : Byte) : (s.setReg r b).st = s.st := rfl
@[simp] theorem State.setReg_wait (r : Nibble) (b : Byte) : (s.setReg r b).wait = s.wait := rfl
@[simp] theorem State.setReg_vblank (r : Nibble) (b : Byte) : (s.setReg r b).vblank = s.vblank := rfl
@[simp] theorem State.setReg_mem (r : Nibble) (b : Byte) : (s.setReg r b).mem = s.mem := rfl
@[simp] theorem State.setReg_pix (r : Nibble) (b : Byte) : (s.setReg r b).pix = s.pix := rfl
@[simp] theorem State.setReg_key (r : Nibble) (b : Byte) : (s.setReg r b).key = s.key := rfl
@[simp] theorem State.setReg_halted (r : Nibble) (b : Byte) : (s.setReg r b).halted = s.halted := rfl
@[simp] theorem State.setReg_font (r : Nibble) (b : Byte) : (s.setReg r b).font = s.font := rfl
@[simp] theorem State.setReg_fontWrite (r : Nibble) (b : Byte) : (s.setReg r b).fontWrite = s.fontWrite := rfl
@[simp] theorem State.setReg_draws (r : Nibble) (b : Byte) : (s.setReg r b).draws = s.draws := rfl
@[simp] theorem State.setReg_drew (r : Nibble) (b : Byte) : (s.setReg r b).drew = s.drew := rfl
@[simp] theorem State.setReg_schedule (r : Nibble) (b : Byte) : (s.setReg r b).schedule = s.schedule := rfl

/-! ### State.setResultFlag -/

@[simp] theorem State.setResultFlag_v (x : Nibble) (r f : Byte) :
    (s.setResultFlag x r f).v = ((s.setReg x r).setReg vfNum f).v := rfl
@[simp] theorem State.setResultFlag_i (x : Nibble) (r f : Byte) : (s.setResultFlag x r f).i = s.i := rfl
@[simp] theorem State.setResultFlag_pc (x : Nibble) (r f : Byte) : (s.setResultFlag x r f).pc = s.pc := rfl
@[simp] theorem State.setResultFlag_stack (x : Nibble) (r f : Byte) : (s.setResultFlag x r f).stack = s.stack := rfl
@[simp] theorem State.setResultFlag_sp (x : Nibble) (r f : Byte) : (s.setResultFlag x r f).sp = s.sp := rfl
@[simp] theorem State.setResultFlag_dt (x : Nibble) (r f : Byte) : (s.setResultFlag x r f).dt = s.dt := rfl
@[simp] theorem State.setResultFlag_st (x : Nibble) (r f : Byte) : (s.setResultFlag x r f).st = s.st := rfl
@[simp] theorem State.setResultFlag_wait (x : Nibble) (r f : Byte) : (s.setResultFlag x r f).wait = s.wait := rfl
@[simp] theorem State.setResultFlag_vblank (x : Nibble) (r f : Byte) : (s.setResultFlag x r f).vblank = s.vblank := rfl
@[simp] theorem State.setResultFlag_mem (x : Nibble) (r f : Byte) : (s.setResultFlag x r f).mem = s.mem := rfl
@[simp] theorem State.setResultFlag_pix (x : Nibble) (r f : Byte) : (s.setResultFlag x r f).pix = s.pix := rfl
@[simp] theorem State.setResultFlag_key (x : Nibble) (r f : Byte) : (s.setResultFlag x r f).key = s.key := rfl
@[simp] theorem State.setResultFlag_halted (x : Nibble) (r f : Byte) : (s.setResultFlag x r f).halted = s.halted := rfl
@[simp] theorem State.setResultFlag_font (x : Nibble) (r f : Byte) : (s.setResultFlag x r f).font = s.font := rfl
@[simp] theorem State.setResultFlag_fontWrite (x : Nibble) (r f : Byte) :
    (s.setResultFlag x r f).fontWrite = s.fontWrite := rfl
@[simp] theorem State.setResultFlag_draws (x : Nibble) (r f : Byte) : (s.setResultFlag x r f).draws = s.draws := rfl
@[simp] theorem State.setResultFlag_drew (x : Nibble) (r f : Byte) : (s.setResultFlag x r f).drew = s.drew := rfl
@[simp] theorem State.setResultFlag_schedule (x : Nibble) (r f : Byte) :
    (s.setResultFlag x r f).schedule = s.schedule := rfl

/-! ### State.setRandom -/

@[simp] theorem State.setRandom_v (x : Nibble) (kk r : Byte) :
    (s.setRandom x kk r).v = (s.setReg x (r &&& kk)).v := rfl
@[simp] theorem State.setRandom_i (x : Nibble) (kk r : Byte) : (s.setRandom x kk r).i = s.i := rfl
@[simp] theorem State.setRandom_pc (x : Nibble) (kk r : Byte) : (s.setRandom x kk r).pc = s.pc := rfl
@[simp] theorem State.setRandom_stack (x : Nibble) (kk r : Byte) : (s.setRandom x kk r).stack = s.stack := rfl
@[simp] theorem State.setRandom_sp (x : Nibble) (kk r : Byte) : (s.setRandom x kk r).sp = s.sp := rfl
@[simp] theorem State.setRandom_dt (x : Nibble) (kk r : Byte) : (s.setRandom x kk r).dt = s.dt := rfl
@[simp] theorem State.setRandom_st (x : Nibble) (kk r : Byte) : (s.setRandom x kk r).st = s.st := rfl
@[simp] theorem State.setRandom_wait (x : Nibble) (kk r : Byte) : (s.setRandom x kk r).wait = s.wait := rfl
@[simp] theorem State.setRandom_vblank (x : Nibble) (kk r : Byte) : (s.setRandom x kk r).vblank = s.vblank := rfl
@[simp] theorem State.setRandom_mem (x : Nibble) (kk r : Byte) : (s.setRandom x kk r).mem = s.mem := rfl
@[simp] theorem State.setRandom_pix (x : Nibble) (kk r : Byte) : (s.setRandom x kk r).pix = s.pix := rfl
@[simp] theorem State.setRandom_key (x : Nibble) (kk r : Byte) : (s.setRandom x kk r).key = s.key := rfl
@[simp] theorem State.setRandom_halted (x : Nibble) (kk r : Byte) : (s.setRandom x kk r).halted = s.halted := rfl
@[simp] theorem State.setRandom_font (x : Nibble) (kk r : Byte) : (s.setRandom x kk r).font = s.font := rfl
@[simp] theorem State.setRandom_fontWrite (x : Nibble) (kk r : Byte) :
    (s.setRandom x kk r).fontWrite = s.fontWrite := rfl
@[simp] theorem State.setRandom_draws (x : Nibble) (kk r : Byte) : (s.setRandom x kk r).draws = s.draws + 1 := rfl
@[simp] theorem State.setRandom_drew (x : Nibble) (kk r : Byte) : (s.setRandom x kk r).drew = s.drew := rfl
@[simp] theorem State.setRandom_schedule (x : Nibble) (kk r : Byte) : (s.setRandom x kk r).schedule = s.schedule := rfl

/-! ### State.addToI -/

@[simp] theorem State.addToI_v (w : Word) : (s.addToI w).v = s.v := rfl
@[simp] theorem State.addToI_i (w : Word) : (s.addToI w).i = s.i + w := rfl
@[simp] theorem State.addToI_pc (w : Word) : (s.addToI w).pc = s.pc := rfl
@[simp] theorem State.addToI_stack (w : Word) : (s.addToI w).stack = s.stack := rfl
@[simp] theorem State.addToI_sp (w : Word) : (s.addToI w).sp = s.sp := rfl
@[simp] theorem State.addToI_dt (w : Word) : (s.addToI w).dt = s.dt := rfl
@[simp] theorem State.addToI_st (w : Word) : (s.addToI w).st = s.st := rfl
@[simp] theorem State.addToI_wait (w : Word) : (s.addToI w).wait = s.wait := rfl
@[simp] theorem State.addToI_vblank (w : Word) : (s.addToI w).vblank = s.vblank := rfl
@[simp] theorem State.addToI_mem (w : Word) : (s.addToI w).mem = s.mem := rfl
@[simp] theorem State.addToI_pix (w : Word) : (s.addToI w).pix = s.pix := rfl
@[simp] theorem State.addToI_key (w : Word) : (s.addToI w).key = s.key := rfl
@[simp] theorem State.addToI_halted (w : Word) : (s.addToI w).halted = s.halted := rfl
@[simp] theorem State.addToI_font (w : Word) : (s.addToI w).font = s.font := rfl
@[simp] theorem State.addToI_fontWrite (w : Word) : (s.addToI w).fontWrite = s.fontWrite := rfl
@[simp] theorem State.addToI_draws (w : Word) : (s.addToI w).draws = s.draws := rfl
@[simp] theorem State.addToI_drew (w : Word) : (s.addToI w).drew = s.drew := rfl
@[simp] theorem State.addToI_schedule (w : Word) : (s.addToI w).schedule = s.schedule := rfl

/-! ### State.setByte -/

@[simp] theorem State.setByte_v (a : Nat) (b : Byte) : (s.setByte a b).v = s.v := rfl
@[simp] theorem State.setByte_i (a : Nat) (b : Byte) : (s.setByte a b).i = s.i := rfl
@[simp] theorem State.setByte_pc (a : Nat) (b : Byte) : (s.setByte a b).pc = s.pc := rfl
@[simp] theorem State.setByte_stack (a : Nat) (b : Byte) : (s.setByte a b).stack = s.stack := rfl
@[simp] theorem State.setByte_sp (a : Nat) (b : Byte) : (s.setByte a b).sp = s.sp := rfl
@[simp] theorem State.setByte_dt (a : Nat) (b : Byte) : (s.setByte a b).dt = s.dt := rfl
@[simp] theorem State.setByte_st (a : Nat) (b : Byte) : (s.setByte a b).st = s.st := rfl
@[simp] theorem State.setByte_wait (a : Nat) (b : Byte) : (s.setByte a b).wait = s.wait := rfl
@[simp] theorem State.setByte_vblank (a : Nat) (b : Byte) : (s.setByte a b).vblank = s.vblank := rfl
@[simp] theorem State.setByte_mem (a : Nat) (b : Byte) : (s.setByte a b).mem = Memory.write s.font s.mem a b := rfl
@[simp] theorem State.setByte_pix (a : Nat) (b : Byte) : (s.setByte a b).pix = s.pix := rfl
@[simp] theorem State.setByte_key (a : Nat) (b : Byte) : (s.setByte a b).key = s.key := rfl
@[simp] theorem State.setByte_halted (a : Nat) (b : Byte) : (s.setByte a b).halted = s.halted := rfl
@[simp] theorem State.setByte_font (a : Nat) (b : Byte) : (s.setByte a b).font = s.font := rfl
@[simp] theorem State.setByte_fontWrite (a : Nat) (b : Byte) : (s.setByte a b).fontWrite = s.fontWrite := rfl
@[simp] theorem State.setByte_draws (a : Nat) (b : Byte) : (s.setByte a b).draws = s.draws := rfl
@[simp] theorem State.setByte_drew (a : Nat) (b : Byte) : (s.setByte a b).drew = s.drew := rfl
@[simp] theorem State.setByte_schedule (a : Nat) (b : Byte) : (s.setByte a b).schedule = s.schedule := rfl

/-! ### State.withSprite -/

@[simp] theorem State.withSprite_v (x y : Nibble) (rows : List Byte) :
    (s.withSprite x y rows).v = (s.setReg vfNum (flagByte (drawSprite s.pix (s.reg x).toNat (s.reg y).toNat rows).1)).v := rfl
@[simp] theorem State.withSprite_i (x y : Nibble) (rows : List Byte) : (s.withSprite x y rows).i = s.i := rfl
@[simp] theorem State.withSprite_pc (x y : Nibble) (rows : List Byte) : (s.withSprite x y rows).pc = s.pc := rfl
@[simp] theorem State.withSprite_stack (x y : Nibble) (rows : List Byte) :
    (s.withSprite x y rows).stack = s.stack := rfl
@[simp] theorem State.withSprite_sp (x y : Nibble) (rows : List Byte) : (s.withSprite x y rows).sp = s.sp := rfl
@[simp] theorem State.withSprite_dt (x y : Nibble) (rows : List Byte) : (s.withSprite x y rows).dt = s.dt := rfl
@[simp] theorem State.withSprite_st (x y : Nibble) (rows : List Byte) : (s.withSprite x y rows).st = s.st := rfl
@[simp] theorem State.withSprite_wait (x y : Nibble) (rows : List Byte) : (s.withSprite x y rows).wait = s.wait := rfl
@[simp] theorem State.withSprite_vblank (x y : Nibble) (rows : List Byte) :
    (s.withSprite x y rows).vblank = true := rfl
@[simp] theorem State.withSprite_mem (x y : Nibble) (rows : List Byte) : (s.withSprite x y rows).mem = s.mem := rfl
@[simp] theorem State.withSprite_pix (x y : Nibble) (rows : List Byte) :
    (s.withSprite x y rows).pix = (drawSprite s.pix (s.reg x).toNat (s.reg y).toNat rows).2 := rfl
@[simp] theorem State.withSprite_key (x y : Nibble) (rows : List Byte) : (s.withSprite x y rows).key = s.key := rfl
@[simp] theorem State.withSprite_halted (x y : Nibble) (rows : List Byte) :
    (s.withSprite x y rows).halted = s.halted := rfl
@[simp] theorem State.withSprite_font (x y : Nibble) (rows : List Byte) : (s.withSprite x y rows).font = s.font := rfl
@[simp] theorem State.withSprite_fontWrite (x y : Nibble) (rows : List Byte) :
    (s.withSprite x y rows).fontWrite = s.fontWrite := rfl
@[simp] theorem State.withSprite_draws (x y : Nibble) (rows : List Byte) :
    (s.withSprite x y rows).draws = s.draws := rfl
@[simp] theorem State.withSprite_drew (x y : Nibble) (rows : List Byte) : (s.withSprite x y rows).drew = true := rfl
@[simp] theorem State.withSprite_schedule (x y : Nibble) (rows : List Byte) :
    (s.withSprite x y rows).schedule = s.schedule := rfl

/-! ### State.beginCycle -/

@[simp] theorem State.beginCycle_v : s.beginCycle.v = s.v := rfl
@[simp] theorem State.beginCycle_i : s.beginCycle.i = s.i := rfl
@[simp] theorem State.beginCycle_pc : s.beginCycle.pc = s.pc := rfl
@[simp] theorem State.beginCycle_stack : s.beginCycle.stack = s.stack := rfl
@[simp] theorem State.beginCycle_sp : s.beginCycle.sp = s.sp := rfl
@[simp] theorem State.beginCycle_dt : s.beginCycle.dt = s.dt := rfl
@[simp] theorem State.beginCycle_st : s.beginCycle.st = s.st := rfl
@[simp] theorem State.beginCycle_wait : s.beginCycle.wait = s.wait := rfl
@[simp] theorem State.beginCycle_vblank : s.beginCycle.vblank = s.vblank := rfl
@[simp] theorem State.beginCycle_mem : s.beginCycle.mem = s.mem := rfl
@[simp] theorem State.beginCycle_pix : s.beginCycle.pix = s.pix := rfl
@[simp] theorem State.beginCycle_key : s.beginCycle.key = s.key := rfl
@[simp] theorem State.beginCycle_halted : s.beginCycle.halted = s.halted := rfl
@[simp] theorem State.beginCycle_font : s.beginCycle.font = s.font := rfl
@[simp] theorem State.beginCycle_fontWrite : s.beginCycle.fontWrite = s.fontWrite := rfl
@[simp] theorem State.beginCycle_draws : s.beginCycle.draws = s.draws := rfl
@[simp] theorem State.beginCycle_drew : s.beginCycle.drew = false := rfl
@[simp] theorem State.beginCycle_schedule : s.beginCycle.schedule = s.schedule := rfl

/-! ### State.tickTimers -/

@[simp] theorem State.tickTimers_v : s.tickTimers.v = s.v := rfl
@[simp] theorem State.tickTimers_i : s.tickTimers.i = s.i := rfl
@[simp] theorem State.tickTimers_pc : s.tickTimers.pc = s.pc := rfl
@[simp] theorem State.tickTimers_stack : s.tickTimers.stack = s.stack := rfl
@[simp] theorem State.tickTimers_sp : s.tickTimers.sp = s.sp := rfl
@[simp] theorem State.tickTimers_dt : s.tickTimers.dt = countDown s.dt := rfl
@[simp] theorem State.tickTimers_st : s.tickTimers.st = countDown s.st := rfl
@[simp] theorem State.tickTimers_wait : s.tickTimers.wait = s.wait := rfl
@[simp] theorem State.tickTimers_vblank : s.tickTimers.vblank = false := rfl
@[simp] theorem State.tickTimers_mem : s.tickTimers.mem = s.mem := rfl
@[simp] theorem State.tickTimers_pix : s.tickTimers.pix = s.pix := rfl
@[simp] theorem State.tickTimers_key : s.tickTimers.key = s.key := rfl
@[simp] theorem State.tickTimers_halted : s.tickTimers.halted = s.halted := rfl
@[simp] theorem State.tickTimers_font : s.tickTimers.font = s.font := rfl
@[simp] theorem State.tickTimers_fontWrite : s.tickTimers.fontWrite = s.fontWrite := rfl
@[simp] theorem State.tickTimers_draws : s.tickTimers.draws = s.draws := rfl
@[simp] theorem State.tickTimers_drew : s.tickTimers.drew = s.drew := rfl
@[simp] theorem State.tickTimers_schedule : s.tickTimers.schedule = s.schedule := rfl

/-! ### State.setKey -/

@[simp] theorem State.setKey_v (k : Nibble) (p : Bool) : (s.setKey k p).v = s.v := rfl
@[simp] theorem State.setKey_i (k : Nibble) (p : Bool) : (s.setKey k p).i = s.i := rfl
@[simp] theorem State.setKey_pc (k : Nibble) (p : Bool) : (s.setKey k p).pc = s.pc := rfl
@[simp] theorem State.setKey_stack (k : Nibble) (p : Bool) : (s.setKey k p).stack = s.stack := rfl
@[simp] theorem State.setKey_sp (k : Nibble) (p : Bool) : (s.setKey k p).sp = s.sp := rfl
@[simp] theorem State.setKey_dt (k : Nibble) (p : Bool) : (s.setKey k p).dt = s.dt := rfl
@[simp] theorem State.setKey_st (k : Nibble) (p : Bool) : (s.setKey k p).st = s.st := rfl
@[simp] theorem State.setKey_wait (k : Nibble) (p : Bool) : (s.setKey k p).wait = s.wait := rfl
@[simp] theorem State.setKey_vblank (k : Nibble) (p : Bool) : (s.setKey k p).vblank = s.vblank := rfl
@[simp] theorem State.setKey_mem (k : Nibble) (p : Bool) : (s.setKey k p).mem = s.mem := rfl
@[simp] theorem State.setKey_pix (k : Nibble) (p : Bool) : (s.setKey k p).pix = s.pix := rfl
@[simp] theorem State.setKey_key (k : Nibble) (p : Bool) : (s.setKey k p).key = s.key.set k.toFin p := rfl
@[simp] theorem State.setKey_halted (k : Nibble) (p : Bool) : (s.setKey k p).halted = s.halted := rfl
@[simp] theorem State.setKey_font (k : Nibble) (p : Bool) : (s.setKey k p).font = s.font := rfl
@[simp] theorem State.setKey_fontWrite (k : Nibble) (p : Bool) : (s.setKey k p).fontWrite = s.fontWrite := rfl
@[simp] theorem State.setKey_draws (k : Nibble) (p : Bool) : (s.setKey k p).draws = s.draws := rfl
@[simp] theorem State.setKey_drew (k : Nibble) (p : Bool) : (s.setKey k p).drew = s.drew := rfl
@[simp] theorem State.setKey_schedule (k : Nibble) (p : Bool) : (s.setKey k p).schedule = s.schedule := rfl

/-! ### State.setPixel -/

@[simp] theorem State.setPixel_v (px py : Nat) (on : Bool) : (s.setPixel px py on).v = s.v := rfl
@[simp] theorem State.setPixel_i (px py : Nat) (on : Bool) : (s.setPixel px py on).i = s.i := rfl
@[simp] theorem State.setPixel_pc (px py : Nat) (on : Bool) : (s.setPixel px py on).pc = s.pc := rfl
@[simp] theorem State.setPixel_stack (px py : Nat) (on : Bool) : (s.setPixel px py on).stack = s.stack := rfl
@[simp] theorem State.setPixel_sp (px py : Nat) (on : Bool) : (s.setPixel px py on).sp = s.sp := rfl
@[simp] theorem State.setPixel_dt (px py : Nat) (on : Bool) : (s.setPixel px py on).dt = s.dt := rfl
@[simp] theorem State.setPixel_st (px py : Nat) (on : Bool) : (s.setPixel px py on).st = s.st := rfl
@[simp] theorem State.setPixel_wait (px py : Nat) (on : Bool) : (s.setPixel px py on).wait = s.wait := rfl
@[simp] theorem State.setPixel_vblank (px py : Nat) (on : Bool) : (s.setPixel px py on).vblank = s.vblank := rfl
@[simp] theorem State.setPixel_mem (px py : Nat) (on : Bool) : (s.setPixel px py on).mem = s.mem := rfl
@[simp] theorem State.setPixel_pix (px py : Nat) (on : Bool) :
    (s.setPixel px py on).pix = Grid.set s.pix px py on := rfl
@[simp] theorem State.setPixel_key (px py : Nat) (on : Bool) : (s.setPixel px py on).key = s.key := rfl
@[simp] theorem State.setPixel_halted (px py : Nat) (on : Bool) : (s.setPixel px py on).halted = s.halted := rfl
@[simp] theorem State.setPixel_font (px py : Nat) (on : Bool) : (s.setPixel px py on).font = s.font := rfl
@[simp] theorem State.setPixel_fontWrite (px py : Nat) (on : Bool) :
    (s.setPixel px py on).fontWrite = s.fontWrite := rfl
@[simp] theorem State.setPixel_draws (px py : Nat) (on : Bool) : (s.setPixel px py on).draws = s.draws := rfl
@[simp] theorem State.setPixel_drew (px py : Nat) (on : Bool) : (s.setPixel px py on).drew = s.drew := rfl
@[simp] theorem State.setPixel_schedule (px py : Nat) (on : Bool) : (s.setPixel px py on).schedule = s.schedule := rfl

/-! ### Conditional and composed updates -/

/-- A skip changes pc at most. -/
theorem skipIf_eq (c : Bool) : skipIf c s = { s with pc := if c then s.pc + 2 else s.pc } := by
  cases c <;> rfl

/-- Looking for a press changes pc and the key wait only. -/
theorem awaitPress_eq : awaitPress s = { s with pc := s.pc - 2, wait := (awaitPress s).wait } := rfl

/-- Registers written one after the other change the register file only. -/
theorem State.setRegsFrom_eq : ∀ (bs : List Byte) (s : State) (k : Nat),
    s.setRegsFrom k bs = { s with v := (s.setRegsFrom k bs).v }
  | [], _, _ => rfl
  | b :: bs, s, k => by
    rw [State.setRegsFrom, State.setRegsFrom_eq bs (s.setReg (BitVec.ofNat 4 k) b) (k + 1)]
    rfl

end Sys2Proof.Machine
end

