-- ==== Sys2Proof/Laws/Memory.lean ====
section
/-! SUPPORT. Reading memory after it is written, and that every memory operation keeps the canonical form. -/

namespace Sys2Proof.Machine

/-! ### Reading after writing -/

theorem Memory.find_without (a c : Nat) : ∀ m : Memory,
    Memory.find (Memory.without m a) c = if c = a then none else Memory.find m c
  | [] => by simp [Memory.without, Memory.find]
  | (k, b) :: rest => by
    have ih := Memory.find_without a c rest
    by_cases hk : k = a <;> by_cases hc : k = c <;> by_cases hca : c = a <;>
      simp_all [Memory.without, Memory.find]

theorem Memory.find_insert (a c : Nat) (v : Byte) : ∀ m : Memory, Memory.find m a = none →
    Memory.find (Memory.insert m a v) c = if c = a then some v else Memory.find m c
  | [], _ => by
    by_cases h : a = c <;> simp_all [Memory.insert, Memory.find, eq_comm]
  | (k, b) :: rest, h => by
    by_cases hk : k = a
    · simp [Memory.find, hk] at h
    · have hr : Memory.find rest a = none := by simpa [Memory.find, hk] using h
      have ih := Memory.find_insert a c v rest hr
      by_cases hlt : a < k
      · rw [Memory.insert, if_pos hlt, Memory.find]
        by_cases hac : a = c
        · simp [hac]
        · simp [hac, Ne.symm hac]
      · rw [Memory.insert, if_neg hlt, Memory.find, ih, Memory.find]
        by_cases hc : k = c
        · simp [hc, show c ≠ a from hc ▸ hk]
        · simp [hc]

/-- A byte reads what was last written to it and every other byte keeps its value (spec/20_memory.md R71). -/
theorem Memory.read_write (font : Config.Font) (m : Memory) (a c : Nat) (v : Byte) :
    Memory.read font (Memory.write font m a v) c = if c = a then v else Memory.read font m c := by
  unfold Memory.write Memory.read
  split
  · rename_i hv
    rw [Memory.find_without]
    by_cases h : c = a <;> simp_all
  · rw [Memory.find_insert a c v _ (by simp [Memory.find_without]), Memory.find_without]
    by_cases h : c = a <;> simp_all

/-- Reading after a list of bytes is stored from `a` up. -/
theorem Memory.read_writeList (font : Config.Font) : ∀ (vs : List Byte) (m : Memory) (a c : Nat),
    Memory.read font (Memory.writeList font m a vs) c
      = if a ≤ c then (vs[c - a]?).getD (Memory.read font m c) else Memory.read font m c
  | [], m, a, c => by simp [Memory.writeList]
  | v :: vs, m, a, c => by
    rw [Memory.writeList, Memory.read_writeList font vs _ (a + 1) c, Memory.read_write]
    rcases Nat.lt_trichotomy c a with h | rfl | h
    · have h1 : ¬ a + 1 ≤ c := by omega
      have h2 : ¬ a ≤ c := by omega
      have h3 : c ≠ a := by omega
      simp [h1, h2, h3]
    · simp
    · have h1 : a + 1 ≤ c := h
      have h2 : a ≤ c := by omega
      have h3 : c ≠ a := by omega
      have h4 : c - a = (c - (a + 1)) + 1 := by omega
      simp [h1, h2, h3, h4]

theorem State.byteAt_setByte (s : State) (a c : Nat) (v : Byte) :
    (s.setByte a v).byteAt c = if c = a then v else s.byteAt c :=
  Memory.read_write s.font s.mem a c v

/-- What a byte reads depends on the cells and FONT only. -/
theorem State.byteAt_congr {s t : State} (hm : t.mem = s.mem) (hf : t.font = s.font) (a : Nat) :
    t.byteAt a = s.byteAt a := by
  simp [State.byteAt, hm, hf]

/-! ### The canonical form -/

theorem Memory.rising_mono {lo lo' : Nat} (h : lo ≤ lo') : ∀ m : Memory, Memory.rising lo' m = true →
    Memory.rising lo m = true
  | [], _ => rfl
  | (k, b) :: rest, hr => by
    simp only [Memory.rising, Bool.and_eq_true, decide_eq_true_eq] at hr ⊢
    exact ⟨by omega, hr.2⟩

theorem Memory.rising_without (a : Nat) : ∀ (lo : Nat) (m : Memory), Memory.rising lo m = true →
    Memory.rising lo (Memory.without m a) = true
  | _, [], _ => rfl
  | lo, (k, b) :: rest, hr => by
    simp only [Memory.rising, Bool.and_eq_true, decide_eq_true_eq] at hr
    have ih := Memory.rising_without a (k + 1) rest hr.2
    by_cases hk : k = a
    · simp only [Memory.without, hk, if_true]
      exact Memory.rising_mono (by omega) _ (hk ▸ ih)
    · simp [Memory.without, hk, Memory.rising, hr.1, ih]

theorem Memory.rising_insert (a : Nat) (v : Byte) : ∀ (lo : Nat) (m : Memory), Memory.rising lo m = true → lo ≤ a →
    Memory.find m a = none → Memory.rising lo (Memory.insert m a v) = true
  | lo, [], _, hlo, _ => by simp [Memory.insert, Memory.rising, hlo]
  | lo, (k, b) :: rest, hr, hlo, hf => by
    simp only [Memory.rising, Bool.and_eq_true, decide_eq_true_eq] at hr
    have hk : k ≠ a := by
      rintro rfl
      simp [Memory.find] at hf
    have hrest : Memory.find rest a = none := by simpa [Memory.find, hk] using hf
    by_cases hlt : a < k
    · have h2 : a + 1 ≤ k := hlt
      simp [Memory.insert, hlt, Memory.rising, hlo, h2, hr.2]
    · have ih := Memory.rising_insert a v (k + 1) rest hr.2 (by omega) hrest
      simp [Memory.insert, hlt, Memory.rising, hr.1, ih]

theorem Memory.mem_without {a : Nat} {c : Host.Cell} : ∀ {m : Memory}, c ∈ Memory.without m a → c ∈ m
  | [], h => h
  | (k, b) :: rest, h => by
    by_cases hk : k = a
    · exact List.mem_cons_of_mem _ (Memory.mem_without (by simpa [Memory.without, hk] using h))
    · rcases List.mem_cons.mp (by simpa [Memory.without, hk] using h : c ∈ (k, b) :: Memory.without rest a) with h | h
      · exact h ▸ List.mem_cons_self
      · exact List.mem_cons_of_mem _ (Memory.mem_without h)

theorem Memory.mem_insert {a : Nat} {v : Byte} {c : Host.Cell} : ∀ {m : Memory}, c ∈ Memory.insert m a v →
    c = (a, v) ∨ c ∈ m
  | [], h => by simpa [Memory.insert] using h
  | (k, b) :: rest, h => by
    by_cases hlt : a < k
    · simpa [Memory.insert, hlt] using h
    · rcases List.mem_cons.mp (by simpa [Memory.insert, hlt] using h : c ∈ (k, b) :: Memory.insert rest a v) with h | h
      · exact Or.inr (h ▸ List.mem_cons_self)
      · rcases Memory.mem_insert h with h | h
        · exact Or.inl h
        · exact Or.inr (List.mem_cons_of_mem _ h)

/-- Storing a byte at a backed address keeps the canonical form. -/
theorem Memory.wf_write {font : Config.Font} {m : Memory} (h : Memory.wf font m = true) {a : Nat} (ha : a ≤ 4095)
    (v : Byte) : Memory.wf font (Memory.write font m a v) = true := by
  simp only [Memory.wf, Bool.and_eq_true, List.all_eq_true] at h ⊢
  unfold Memory.write
  split
  · exact ⟨Memory.rising_without a 0 m h.1, fun c hc => h.2 c (Memory.mem_without hc)⟩
  · rename_i hv
    refine ⟨Memory.rising_insert a v 0 _ (Memory.rising_without a 0 m h.1) (Nat.zero_le a)
      (by simp [Memory.find_without]), fun c hc => ?_⟩
    rcases Memory.mem_insert hc with rfl | hc
    · simp [ha, hv]
    · exact h.2 c (Memory.mem_without hc)

/-- Storing bytes at backed addresses keeps the canonical form. -/
theorem Memory.wf_writeList {font : Config.Font} : ∀ (vs : List Byte) {m : Memory}, Memory.wf font m = true →
    ∀ {a : Nat}, a + vs.length ≤ 4096 → Memory.wf font (Memory.writeList font m a vs) = true
  | [], _, h, _, _ => h
  | v :: vs, _, h, a, ha => by
    simp only [List.length_cons] at ha
    exact Memory.wf_writeList vs (Memory.wf_write h (by omega) v) (by omega)

/-- The empty memory is canonical for every FONT. -/
theorem Memory.wf_nil (font : Config.Font) : Memory.wf font [] = true := rfl

/-- The memory after reset is canonical. -/
theorem reset_memory_wf : Memory.wf State.reset.font State.reset.mem = true := rfl

end Sys2Proof.Machine
end

