-- ==== Sys2Proof/Laws/Access.lean ====
section
/-! SUPPORT. What each checked access can do, once: the single-byte accesses, the fetch read, and the ranges of bytes
that Dxyn, Fx33, Fx55 and Fx65 read or write (spec/20_memory.md R62 to R64; spec/43_index_memory.md R180). -/

namespace Sys2Proof.Machine

theorem memRead_ok (s : State) {a : Nat} (h : a ≤ 4095) : memRead s a = .ok (s.byteAt a) := by
  simp [memRead, Nat.not_lt.mpr h]

theorem memRead_outOfRange (s : State) {a : Nat} (h : 4095 < a) :
    memRead s a = .error (.raised (.addressOutOfRange a)) := by
  simp [memRead, h]

theorem memWrite_ok (s : State) {a : Nat} (v : Byte) (h : a ≤ 4095) (hf : 0x04F < a ∨ s.fontWrite = .store) :
    memWrite s a v = .ok (s.setByte a v) := by
  have h1 : ¬ a > 4095 := by omega
  rcases hf with hf | hf
  · simp [memWrite, h1, Nat.not_le.mpr hf]
  · simp [memWrite, h1, hf]

theorem memWrite_outOfRange (s : State) {a : Nat} (v : Byte) (h : 4095 < a) :
    memWrite s a v = .error (.raised (.addressOutOfRange a)) := by
  simp [memWrite, h]

theorem memWrite_font (s : State) {a : Nat} (v : Byte) (h : a ≤ 0x04F) (hf : s.fontWrite = .refuse) :
    memWrite s a v = .error (.refused (.fontWrite a)) := by
  have h1 : ¬ a > 4095 := by omega
  simp [memWrite, h1, h, hf]

/-- Everything a checked store can do. -/
theorem memWrite_inv {s t : State} {a : Nat} {v : Byte} (h : memWrite s a v = .ok t) :
    a ≤ 4095 ∧ (0x04F < a ∨ s.fontWrite = .store) ∧ t = s.setByte a v := by
  unfold memWrite at h
  split at h
  · cases h
  · split at h
    · split at h
      · cases h
        exact ⟨by omega, Or.inr ‹_›, rfl⟩
      · cases h
    · cases h
      exact ⟨by omega, Or.inl (by omega), rfl⟩

/-- The fetch read inside memory (R64, R65). -/
theorem memRead2_ok (s : State) {a : Nat} (h : a ≤ 4094) :
    memRead2 s a = .ok (wordOfBytes (s.byteAt a) (s.byteAt (a + 1))) := by
  simp [memRead2, memRead_ok s (show a ≤ 4095 by omega), memRead_ok s (show a + 1 ≤ 4095 by omega)]

/-- The fetch read at the top byte reports 4096, above it the address itself (R64, R113). -/
theorem memRead2_outOfRange (s : State) {a : Nat} (h : 4094 < a) :
    memRead2 s a = .error (.raised (.addressOutOfRange (max a 4096))) := by
  by_cases h1 : a = 4095
  · subst h1
    simp [memRead2, memRead_ok s (show 4095 ≤ 4095 by omega), memRead_outOfRange s (show 4095 < 4096 by omega)]
  · have h2 : max a 4096 = a := by omega
    simp [memRead2, memRead_outOfRange s (show 4095 < a by omega), h2]

theorem State.length_bytesFrom (s : State) : ∀ n a, (s.bytesFrom a n).length = n
  | 0, _ => rfl
  | n + 1, a => by simp [State.bytesFrom, State.length_bytesFrom s n (a + 1)]

theorem State.getElem?_bytesFrom (s : State) : ∀ n a j, j < n → (s.bytesFrom a n)[j]? = some (s.byteAt (a + j))
  | 0, _, j, h => absurd h (Nat.not_lt_zero j)
  | n + 1, a, 0, _ => by simp [State.bytesFrom]
  | n + 1, a, j + 1, h => by
    simp only [State.bytesFrom, List.getElem?_cons_succ]
    rw [State.getElem?_bytesFrom s n (a + 1) j (by omega)]
    congr 2
    omega

/-- Bytes read inside memory. -/
theorem readBytes_ok (s : State) : ∀ n a, a + n ≤ 4096 → readBytes s a n = .ok (s.bytesFrom a n)
  | 0, _, _ => rfl
  | n + 1, a, h => by
    rw [readBytes, memRead_ok s (show a ≤ 4095 by omega), readBytes_ok s n (a + 1) (by omega)]
    rfl

/-- Bytes read past the end of memory: the first address above 4095 is reported. -/
theorem readBytes_outOfRange (s : State) : ∀ n a, 0 < n → 4096 < a + n →
    readBytes s a n = .error (.raised (.addressOutOfRange (max a 4096)))
  | 0, _, h, _ => absurd h (Nat.lt_irrefl 0)
  | n + 1, a, _, h => by
    by_cases ha : 4095 < a
    · have h2 : max a 4096 = a := by omega
      simp [readBytes, memRead_outOfRange s ha, h2]
    · have h2 : max (a + 1) 4096 = max a 4096 := by omega
      rw [readBytes, memRead_ok s (show a ≤ 4095 by omega), readBytes_outOfRange s n (a + 1) (by omega) (by omega), h2]

/-- Everything a read of bytes can answer. -/
theorem readBytes_cases (s : State) (a n : Nat) :
    readBytes s a n = .ok (s.bytesFrom a n) ∧ (n = 0 ∨ a + n ≤ 4096) ∨
    readBytes s a n = .error (.raised (.addressOutOfRange (max a 4096))) ∧ 0 < n ∧ 4096 < a + n := by
  rcases Nat.eq_zero_or_pos n with rfl | hn
  · exact Or.inl ⟨rfl, Or.inl rfl⟩
  · by_cases h : a + n ≤ 4096
    · exact Or.inl ⟨readBytes_ok s n a h, Or.inr h⟩
    · exact Or.inr ⟨readBytes_outOfRange s n a hn (by omega), hn, by omega⟩

/-- Everything a store of bytes can answer with a next state. -/
theorem writeBytes_inv : ∀ {bs : List Byte} {s t : State} {a : Nat}, writeBytes s a bs = .ok t →
    t = { s with mem := Memory.writeList s.font s.mem a bs } ∧
    (bs = [] ∨ a + bs.length ≤ 4096 ∧ (0x04F < a ∨ s.fontWrite = .store))
  | [], s, t, a, h => by
    cases h
    exact ⟨rfl, Or.inl rfl⟩
  | b :: bs, s, t, a, h => by
    rw [writeBytes] at h
    split at h
    · cases h
    · rename_i u hu
      obtain ⟨ha, hf, rfl⟩ := memWrite_inv hu
      obtain ⟨rfl, hlen⟩ := writeBytes_inv h
      refine ⟨rfl, Or.inr ⟨?_, hf⟩⟩
      rcases hlen with rfl | ⟨hlen, -⟩
      · simp only [List.length_cons, List.length_nil]
        omega
      · simp only [List.length_cons]
        omega

/-- Bytes stored inside memory, outside the font or with FONT_WRITE = Store. -/
theorem writeBytes_ok : ∀ (bs : List Byte) (s : State) (a : Nat), a + bs.length ≤ 4096 →
    (0x04F < a ∨ s.fontWrite = .store) →
    writeBytes s a bs = .ok { s with mem := Memory.writeList s.font s.mem a bs }
  | [], _, _, _, _ => rfl
  | b :: bs, s, a, h, hf => by
    simp only [List.length_cons] at h
    rw [writeBytes, memWrite_ok s b (by omega) hf]
    exact writeBytes_ok bs (s.setByte a b) (a + 1) (by omega) (hf.imp (fun h => by omega) id)

/-- Bytes stored past the end of memory, not starting in the refused font: the first address above 4095. -/
theorem writeBytes_outOfRange : ∀ (bs : List Byte) (s : State) (a : Nat), bs ≠ [] → 4096 < a + bs.length →
    (0x04F < a ∨ s.fontWrite = .store) →
    writeBytes s a bs = .error (.raised (.addressOutOfRange (max a 4096)))
  | [], _, _, h, _, _ => absurd rfl h
  | b :: bs, s, a, _, h, hf => by
    simp only [List.length_cons] at h
    by_cases ha : 4095 < a
    · have h2 : max a 4096 = a := by omega
      rw [writeBytes, memWrite_outOfRange s b ha, h2]
    · have h2 : max (a + 1) 4096 = max a 4096 := by omega
      have hbs : bs ≠ [] := by
        rintro rfl
        simp only [List.length_nil] at h
        omega
      rw [writeBytes, memWrite_ok s b (by omega) hf, ← h2]
      exact writeBytes_outOfRange bs (s.setByte a b) (a + 1) hbs (by omega) (hf.imp (fun h => by omega) id)

/-- A store that starts in the font under FONT_WRITE = Refuse is refused (R123). -/
theorem writeBytes_font (s : State) {bs : List Byte} (hb : bs ≠ []) {a : Nat} (ha : a ≤ 0x04F)
    (hf : s.fontWrite = .refuse) : writeBytes s a bs = .error (.refused (.fontWrite a)) := by
  cases bs with
  | nil => exact absurd rfl hb
  | cons b bs => rw [writeBytes, memWrite_font s b ha hf]

/-- A byte after bytes were stored from `a` up. -/
theorem State.byteAt_writeList (s : State) (a c : Nat) (bs : List Byte) :
    State.byteAt { s with mem := Memory.writeList s.font s.mem a bs } c
      = if a ≤ c then (bs[c - a]?).getD (s.byteAt c) else s.byteAt c :=
  Memory.read_writeList s.font bs s.mem a c

end Sys2Proof.Machine
end

