-- ==== Sys2Proof/Laws/Encoding.lean ====
section
/-! SUPPORT. The number of a word put together from fields, and the fields read back (spec/30_encoding.md R92, R93):
one lemma per layout and per field. -/

namespace Sys2Proof

/-- The number of a concatenation: the left part is the high part (spec/00_scope.md R11). -/
theorem toNat_append_eq_add {v w : Nat} (a : BitVec v) (b : BitVec w) :
    (a ++ b).toNat = a.toNat * 2 ^ w + b.toNat := by
  rw [BitVec.toNat_append, ← Nat.shiftLeft_add_eq_or_of_lt b.isLt, Nat.shiftLeft_eq]

/-- The number of a word fetched from two bytes: `hi * 256 + lo` (spec/20_memory.md R64). -/
theorem toNat_wordOfBytes (hi lo : Byte) : (wordOfBytes hi lo).toNat = hi.toNat * 256 + lo.toNat :=
  toNat_append_eq_add hi lo

variable (op x y n : Nibble) (kk : Byte) (nnn : Addr12)

theorem toNat_regReg : (op ++ x ++ y ++ n : Word).toNat
    = op.toNat * 4096 + x.toNat * 256 + y.toNat * 16 + n.toNat := by
  have h1 : (op ++ x ++ y ++ n : Word).toNat = (op ++ x ++ y).toNat * 2 ^ 4 + n.toNat :=
    toNat_append_eq_add (op ++ x ++ y) n
  rw [h1, toNat_append_eq_add (op ++ x) y, toNat_append_eq_add op x]
  omega

theorem toNat_regImm : (op ++ x ++ kk : Word).toNat = op.toNat * 4096 + x.toNat * 256 + kk.toNat := by
  have h1 : (op ++ x ++ kk : Word).toNat = (op ++ x).toNat * 2 ^ 8 + kk.toNat := toNat_append_eq_add (op ++ x) kk
  rw [h1, toNat_append_eq_add op x]
  omega

theorem toNat_addr : (op ++ nnn : Word).toNat = op.toNat * 4096 + nnn.toNat := by
  have h : (op ++ nnn : Word).toNat = op.toNat * 2 ^ 12 + nnn.toNat := toNat_append_eq_add op nnn
  rw [h]
  omega

@[simp] theorem op_of_regReg : (op ++ x ++ y ++ n : Word).extractLsb' 12 4 = op := by
  apply BitVec.eq_of_toNat_eq
  have h := toNat_regReg op x y n
  have h1 := op.isLt
  have h2 := x.isLt
  have h3 := y.isLt
  have h4 := n.isLt
  rw [BitVec.extractLsb'_toNat, h, Nat.shiftRight_eq_div_pow]
  omega

@[simp] theorem x_of_regReg : (op ++ x ++ y ++ n : Word).extractLsb' 8 4 = x := by
  apply BitVec.eq_of_toNat_eq
  have h := toNat_regReg op x y n
  have h1 := op.isLt
  have h2 := x.isLt
  have h3 := y.isLt
  have h4 := n.isLt
  rw [BitVec.extractLsb'_toNat, h, Nat.shiftRight_eq_div_pow]
  omega

@[simp] theorem y_of_regReg : (op ++ x ++ y ++ n : Word).extractLsb' 4 4 = y := by
  apply BitVec.eq_of_toNat_eq
  have h := toNat_regReg op x y n
  have h1 := op.isLt
  have h2 := x.isLt
  have h3 := y.isLt
  have h4 := n.isLt
  rw [BitVec.extractLsb'_toNat, h, Nat.shiftRight_eq_div_pow]
  omega

@[simp] theorem n_of_regReg : (op ++ x ++ y ++ n : Word).extractLsb' 0 4 = n := by
  apply BitVec.eq_of_toNat_eq
  have h := toNat_regReg op x y n
  have h1 := op.isLt
  have h2 := x.isLt
  have h3 := y.isLt
  have h4 := n.isLt
  rw [BitVec.extractLsb'_toNat, h, Nat.shiftRight_eq_div_pow]
  omega

@[simp] theorem op_of_regImm : (op ++ x ++ kk : Word).extractLsb' 12 4 = op := by
  apply BitVec.eq_of_toNat_eq
  have h := toNat_regImm op x kk
  have h1 := op.isLt
  have h2 := x.isLt
  have h3 := kk.isLt
  rw [BitVec.extractLsb'_toNat, h, Nat.shiftRight_eq_div_pow]
  omega

@[simp] theorem x_of_regImm : (op ++ x ++ kk : Word).extractLsb' 8 4 = x := by
  apply BitVec.eq_of_toNat_eq
  have h := toNat_regImm op x kk
  have h1 := op.isLt
  have h2 := x.isLt
  have h3 := kk.isLt
  rw [BitVec.extractLsb'_toNat, h, Nat.shiftRight_eq_div_pow]
  omega

@[simp] theorem kk_of_regImm : (op ++ x ++ kk : Word).extractLsb' 0 8 = kk := by
  apply BitVec.eq_of_toNat_eq
  have h := toNat_regImm op x kk
  have h1 := op.isLt
  have h2 := x.isLt
  have h3 := kk.isLt
  rw [BitVec.extractLsb'_toNat, h, Nat.shiftRight_eq_div_pow]
  omega

@[simp] theorem op_of_addr : (op ++ nnn : Word).extractLsb' 12 4 = op := by
  apply BitVec.eq_of_toNat_eq
  have h := toNat_addr op nnn
  have h1 := op.isLt
  have h2 := nnn.isLt
  rw [BitVec.extractLsb'_toNat, h, Nat.shiftRight_eq_div_pow]
  omega

@[simp] theorem nnn_of_addr : (op ++ nnn : Word).extractLsb' 0 12 = nnn := by
  apply BitVec.eq_of_toNat_eq
  have h := toNat_addr op nnn
  have h1 := op.isLt
  have h2 := nnn.isLt
  rw [BitVec.extractLsb'_toNat, h, Nat.shiftRight_eq_div_pow]
  omega

end Sys2Proof
end

