-- ==== Sys2Proof/Laws/Registers.lean ====
section
/-! SUPPORT. Reading registers and keys after they are written. -/

namespace Sys2Proof.Machine

/-- A register reads what was last written to it, any other keeps its value (spec/10_state.md R21). -/
theorem State.reg_setReg (s : State) (r q : Nibble) (b : Byte) :
    (s.setReg r b).reg q = if q = r then b else s.reg q := by
  simp only [State.reg, State.setReg, Fin.getElem_fin, Vector.getElem_set, BitVec.val_toFin]
  by_cases h : q = r
  · simp [h]
  · have : r.toNat ≠ q.toNat := fun e => h (BitVec.eq_of_toNat_eq e.symm)
    simp [h, this]

@[simp] theorem State.reg_setReg_self (s : State) (r : Nibble) (b : Byte) : (s.setReg r b).reg r = b := by
  simp [State.reg_setReg]

theorem State.reg_setReg_ne (s : State) {r q : Nibble} (b : Byte) (h : q ≠ r) : (s.setReg r b).reg q = s.reg q := by
  simp [State.reg_setReg, h]

/-- Updates of other fields do not change what a register reads. -/
theorem State.reg_congr {s t : State} (h : t.v = s.v) (r : Nibble) : t.reg r = s.reg r := by
  simp [State.reg, h]

/-- A result and its flag: VF holds the flag whatever x is (spec/42_alu.md R151). -/
theorem State.reg_setResultFlag (s : State) (x q : Nibble) (r f : Byte) :
    (s.setResultFlag x r f).reg q = if q = vfNum then f else if q = x then r else s.reg q := by
  simp [State.setResultFlag, State.reg_setReg]

/-- Two register files that read alike are equal. -/
theorem regs_ext {s t : State} (h : ∀ r : Nibble, s.reg r = t.reg r) : s.v = t.v := by
  apply Vector.ext
  intro k hk
  have := h (BitVec.ofFin ⟨k, hk⟩)
  simpa [State.reg] using this

theorem ofNat4_inj {j k : Nat} (hj : j < 16) (hk : k < 16) : BitVec.ofNat 4 j = BitVec.ofNat 4 k ↔ j = k := by
  constructor
  · intro h
    have := congrArg BitVec.toNat h
    simp only [BitVec.toNat_ofNat] at this
    omega
  · rintro rfl
    rfl

/-- Registers written from V[k] on: V[k + j] gets the j-th byte, the others keep their value. -/
theorem State.reg_setRegsFrom : ∀ (bs : List Byte) (s : State) (k j : Nat), k + bs.length ≤ 16 → j < 16 →
    (s.setRegsFrom k bs).reg (BitVec.ofNat 4 j)
      = if k ≤ j then (bs[j - k]?).getD (s.reg (BitVec.ofNat 4 j)) else s.reg (BitVec.ofNat 4 j)
  | [], s, k, j, _, _ => by simp [State.setRegsFrom]
  | b :: bs, s, k, j, hk, hj => by
    have hlen : k + 1 + bs.length ≤ 16 := by simp only [List.length_cons] at hk; omega
    have hk16 : k < 16 := by omega
    rw [State.setRegsFrom, State.reg_setRegsFrom bs _ (k + 1) j hlen hj, State.reg_setReg]
    simp only [ofNat4_inj hj hk16]
    rcases Nat.lt_trichotomy j k with h | rfl | h
    · have h1 : ¬ k + 1 ≤ j := by omega
      have h2 : ¬ k ≤ j := by omega
      have h3 : j ≠ k := by omega
      simp [h1, h2, h3]
    · simp
    · have h1 : k + 1 ≤ j := h
      have h2 : k ≤ j := by omega
      have h3 : j ≠ k := by omega
      have h4 : j - k = (j - (k + 1)) + 1 := by omega
      simp [h1, h2, h3, h4]

/-- The registers read from V[k] on. -/
theorem State.length_regsFrom (s : State) : ∀ n k, (s.regsFrom k n).length = n
  | 0, _ => rfl
  | n + 1, k => by simp [State.regsFrom, State.length_regsFrom s n (k + 1)]

theorem State.getElem?_regsFrom (s : State) : ∀ n k j, j < n →
    (s.regsFrom k n)[j]? = some (s.reg (BitVec.ofNat 4 (k + j)))
  | 0, _, j, h => absurd h (Nat.not_lt_zero j)
  | n + 1, k, 0, _ => by simp [State.regsFrom]
  | n + 1, k, j + 1, h => by
    simp only [State.regsFrom, List.getElem?_cons_succ]
    rw [State.getElem?_regsFrom s n (k + 1) j (by omega)]
    congr 3
    omega

/-- A key slot reads what was last set (spec/45_keys_timers.md R220). -/
theorem State.keyPressed_setKey (s : State) (k j : Nibble) (p : Bool) :
    (s.setKey k p).keyPressed j = if j = k then p else s.keyPressed j := by
  simp only [State.keyPressed, State.setKey, Fin.getElem_fin, Vector.getElem_set, BitVec.val_toFin]
  by_cases h : j = k
  · simp [h]
  · have : k.toNat ≠ j.toNat := fun e => h (BitVec.eq_of_toNat_eq e.symm)
    simp [h, this]

end Sys2Proof.Machine
end

