-- ==== Sys2Proof/Laws/Stack.lean ====
section
/-! SUPPORT. What a push and a pop can do, once (spec/10_state.md R33 to R35), and how an instruction ends. -/

namespace Sys2Proof.Machine

theorem pushPc_ok (s : State) (h : s.sp.val < 16) :
    pushPc s = .ok { s with stack := s.stack.set s.sp.val s.pc h, sp := ⟨s.sp.val + 1, by omega⟩ } := by
  simp [pushPc, h]

theorem pushPc_overflow (s : State) (h : s.sp.val = 16) : pushPc s = .error (.raised .stackOverflow) := by
  simp [pushPc, h]

theorem popPc_ok (s : State) (h : 0 < s.sp.val) :
    popPc s = .ok { s with sp := ⟨s.sp.val - 1, by omega⟩, pc := s.stack[s.sp.val - 1]'(by omega) } := by
  have h0 : s.sp.val ≠ 0 := by omega
  rw [popPc, dif_neg h0]

theorem popPc_underflow (s : State) (h : s.sp.val = 0) : popPc s = .error (.raised .stackUnderflow) := by
  rw [popPc, dif_pos h]

/-- An instruction that meets an error ends in the rolled-back state with the error latched (spec/60_exceptions.md R252). -/
theorem complete_raised (s : State) (e : Error) :
    complete s (.error (.raised e)) = .next { s with pc := s.pc - 2, halted := some e } := rfl

/-- An instruction that meets a refusal ends the step (spec/40_cycle.md R123). -/
theorem complete_refused (s : State) (r : Refusal) : complete s (.error (.refused r)) = .refused r := rfl

theorem complete_ok (s t : State) : complete s (.ok t) = .next t := rfl

/-- Every next state an instruction can end in: its result, or the latched error. -/
theorem complete_inv {s t : State} {r : Except Stop State} (h : complete s r = .next t) :
    r = .ok t ∨ ∃ e, r = .error (.raised e) ∧ t = s.rollback.latch e := by
  cases r with
  | ok u => exact Or.inl (by cases h; rfl)
  | error why =>
    cases why with
    | raised e => exact Or.inr ⟨e, rfl, by cases h; rfl⟩
    | refused r => cases h

end Sys2Proof.Machine
end

