-- ==== Sys2Proof/Laws/Step.lean ====
section
/-! SUPPORT. What a cycle, a transaction and each instruction that can stop can do, once: the inversions the provers cite
instead of unfolding the definitions. -/

namespace Sys2Proof.Machine

/-- Everything a cycle can answer with a next state: an error latched with nothing committed, or an instruction run on
the advanced pc (spec/40_cycle.md R111). -/
theorem cycle_cases {s t : State} (h : cycle s = .next t) :
    (∃ e, t = { s with drew := false, halted := some e }) ∨
    (s.pc.toNat ≤ 0xFFE ∧ ∃ i, decodeWord (wordOfBytes (s.byteAt s.pc.toNat) (s.byteAt (s.pc.toNat + 1))) = some i ∧
      exec i { s with pc := s.pc + 2, drew := false } = .next t) := by
  unfold cycle at h
  by_cases hp : s.pc.toNat ≤ 4094
  · rw [fetch, memRead2_ok _ (by simpa using hp)] at h
    simp only [runWord] at h
    split at h
    · cases h
      exact Or.inl ⟨_, by simp [State.latch, State.rollback, State.advance, State.beginCycle]; rfl⟩
    · rename_i i hi
      exact Or.inr ⟨hp, i, hi, h⟩
  · rw [fetch, memRead2_outOfRange _ (by simp; omega)] at h
    cases h
    exact Or.inl ⟨_, rfl⟩

/-- Everything a transaction can answer with a next state (spec/60_exceptions.md R254). -/
theorem perform_cases {tr : Transaction} {s t : State} (h : perform tr s = .next t) :
    (tr = .reset ∧ t = s.rebuilt) ∨ (s.halted = none ∧ act tr s = .next t) := by
  unfold perform at h
  split at h
  · exact Or.inr ⟨‹_›, h⟩
  · cases tr <;> first
      | (cases h; exact Or.inl ⟨rfl, rfl⟩)
      | cases h

/-- A step performs the head of the schedule, or a cycle where it is empty. -/
theorem step_eq_perform (s : State) :
    step s = perform (s.schedule.head?.getD .cycle) { s with schedule := s.schedule.tail } := by
  cases hs : s.schedule with
  | nil =>
    have : ({ s with schedule := [] } : State) = s := by cases s; simp_all
    simp [step, hs, this]
  | cons tr rest => simp [step, hs]

/-- Everything a ROM load can do (spec/20_memory.md R76). -/
theorem loadRom_cases (s : State) (rom : List Byte) :
    (rom.length ≤ 3584 ∧ loadRom s rom = .next { s with mem := Memory.writeList s.font s.mem 0x200 rom }) ∨
    (3584 < rom.length ∧ loadRom s rom = .next { s with halted := some (.romTooLarge rom.length) }) := by
  by_cases h : rom.length ≤ 3584
  · exact Or.inl ⟨h, by simp [loadRom, romFits, h]⟩
  · exact Or.inr ⟨by omega, by simp [loadRom, romFits, h, stopIn, State.latch]⟩

/-- Everything `00EE` can do. -/
theorem execRet_cases {s t : State} (h : execRet s = .next t) :
    (∃ h : 0 < s.sp.val, t = { s with sp := ⟨s.sp.val - 1, by omega⟩, pc := s.stack[s.sp.val - 1]'(by omega) }) ∨
    (s.sp.val = 0 ∧ t = { s with pc := s.pc - 2, halted := some .stackUnderflow }) := by
  unfold execRet at h
  by_cases h0 : s.sp.val = 0
  · rw [popPc_underflow s h0] at h
    cases h
    exact Or.inr ⟨h0, rfl⟩
  · have hp : 0 < s.sp.val := by omega
    rw [popPc_ok s hp] at h
    cases h
    exact Or.inl ⟨hp, rfl⟩

/-- Everything `2nnn` can do. -/
theorem execCall_cases {nnn : Addr12} {s t : State} (h : execCall nnn s = .next t) :
    (∃ h : s.sp.val < 16, t = { s with
        stack := s.stack.set s.sp.val s.pc h
        sp := ⟨s.sp.val + 1, by omega⟩
        pc := absTarget nnn }) ∨
    (s.sp.val = 16 ∧ t = { s with pc := s.pc - 2, halted := some .stackOverflow }) := by
  unfold execCall at h
  by_cases h0 : s.sp.val < 16
  · rw [pushPc_ok s h0] at h
    cases h
    exact Or.inl ⟨h0, rfl⟩
  · have h16 : s.sp.val = 16 := by omega
    rw [pushPc_overflow s h16] at h
    cases h
    exact Or.inr ⟨h16, rfl⟩

/-- Everything `Dxyn` can do. -/
theorem execDrw_cases {x y n : Nibble} {s t : State} (h : execDrw x y n s = .next t) :
    (s.vblank = true ∧ t = s.rollback) ∨
    (s.vblank = false ∧ (n.toNat = 0 ∨ s.i.toNat + n.toNat ≤ 4096) ∧
      t = s.withSprite x y (s.bytesFrom s.i.toNat n.toNat)) ∨
    (s.vblank = false ∧ 4096 < s.i.toNat + n.toNat ∧
      t = { s with pc := s.pc - 2, halted := some (.addressOutOfRange (max s.i.toNat 4096)) }) := by
  unfold execDrw at h
  split at h
  · cases h
    exact Or.inl ⟨‹_›, rfl⟩
  · have hv : s.vblank = false := by simpa using ‹¬ s.vblank = true›
    rcases readBytes_cases s (effAddr s 0) n.toNat with ⟨hr, hn⟩ | ⟨hr, -, hn⟩ <;> rw [hr] at h <;> cases h
    · exact Or.inr (Or.inl ⟨hv, hn, rfl⟩)
    · exact Or.inr (Or.inr ⟨hv, hn, rfl⟩)

/-- Everything `Fx33` can do. -/
theorem execLdB_cases {x : Nibble} {s t : State} (h : execLdB x s = .next t) :
    (s.i.toNat + 3 ≤ 4096 ∧ (0x04F < s.i.toNat ∨ s.fontWrite = .store) ∧
      t = { s with mem := Memory.writeList s.font s.mem s.i.toNat (decimalDigits (s.reg x)) }) ∨
    (∃ e, t = { s with pc := s.pc - 2, halted := some e }) := by
  rcases complete_inv h with h | ⟨e, -, rfl⟩
  · obtain ⟨rfl, h1 | ⟨h1, h2⟩⟩ := writeBytes_inv h
    · simp [decimalDigits] at h1
    · exact Or.inl ⟨h1, h2, rfl⟩
  · exact Or.inr ⟨e, rfl⟩

/-- Everything `Fx55` can do. -/
theorem execStRegs_cases {x : Nibble} {s t : State} (h : execStRegs x s = .next t) :
    (s.i.toNat + (x.toNat + 1) ≤ 4096 ∧ (0x04F < s.i.toNat ∨ s.fontWrite = .store) ∧
      t = { s with
        mem := Memory.writeList s.font s.mem s.i.toNat (s.regsFrom 0 (x.toNat + 1))
        i := s.i + BitVec.ofNat 16 (x.toNat + 1) }) ∨
    (∃ e, t = { s with pc := s.pc - 2, halted := some e }) := by
  rcases complete_inv h with h | ⟨e, -, rfl⟩
  · cases hr : writeBytes s (effAddr s 0) (s.regsFrom 0 (x.toNat + 1)) with
    | error why => simp [hr, Except.map] at h
    | ok u =>
      simp only [hr, Except.map, Except.ok.injEq] at h
      subst h
      obtain ⟨rfl, h1 | ⟨h1, h2⟩⟩ := writeBytes_inv hr
      · simp [State.regsFrom] at h1
      · have hlen := s.length_regsFrom (x.toNat + 1) 0
        exact Or.inl ⟨by rw [hlen] at h1; exact h1, h2, rfl⟩
  · exact Or.inr ⟨e, rfl⟩

/-- Everything `Fx65` can do. -/
theorem execLdRegs_cases {x : Nibble} {s t : State} (h : execLdRegs x s = .next t) :
    (s.i.toNat + (x.toNat + 1) ≤ 4096 ∧
      t = { s with
        v := (s.setRegsFrom 0 (s.bytesFrom s.i.toNat (x.toNat + 1))).v
        i := s.i + BitVec.ofNat 16 (x.toNat + 1) }) ∨
    (∃ e, t = { s with pc := s.pc - 2, halted := some e }) := by
  unfold execLdRegs at h
  rcases readBytes_cases s (effAddr s 0) (x.toNat + 1) with ⟨hr, hn⟩ | ⟨hr, -, -⟩ <;> rw [hr] at h <;> cases h
  · refine Or.inl ⟨hn.resolve_left (Nat.succ_ne_zero _), ?_⟩
    have e := State.setRegsFrom_eq (s.bytesFrom s.i.toNat (x.toNat + 1)) s 0
    exact congrArg (fun u => State.addToI u (BitVec.ofNat 16 (x.toNat + 1))) e
  · exact Or.inr ⟨_, rfl⟩

/-- Everything `Fx0A` can do. -/
theorem execLdVxK_cases {x : Nibble} {s t : State} (h : execLdVxK x s = .next t) :
    ((s.wait = .running ∨ s.wait = .awaitingKeyPress) ∧ t = awaitPress s) ∨
    (∃ k, s.wait = .awaitingKeyRelease k ∧
      (s.keyPressed k = true ∧ t = s.rollback ∨
       s.keyPressed k = false ∧ t = { s.setReg x (k.setWidth 8) with wait := .running })) := by
  unfold execLdVxK at h
  split at h
  · cases h
    exact Or.inl ⟨Or.inl ‹_›, rfl⟩
  · cases h
    exact Or.inl ⟨Or.inr ‹_›, rfl⟩
  · rename_i k hk
    split at h <;> cases h
    · exact Or.inr ⟨k, hk, Or.inl ⟨‹_›, rfl⟩⟩
    · exact Or.inr ⟨k, hk, Or.inr ⟨by simpa using ‹¬ s.keyPressed k = true›, rfl⟩⟩

end Sys2Proof.Machine
end

