-- ==== Sys2Proof/Laws/HostRun.lean ====
section
/-! SUPPORT. What a host's run can do, and that the finite schedule of `step` is a host's transactions one after the
other (spec/70_reset_and_hazards.md R290, R292; log entries 3 and 29). -/

namespace Sys2Proof.Machine

/-! ### Sequencing -/

@[simp] theorem andThen_next (t : State) (f : State → Host.Outcome State Fault Refusal) :
    andThen (.next t) f = f t := rfl

@[simp] theorem andThen_fault (r : Fault) (f : State → Host.Outcome State Fault Refusal) :
    andThen (.fault r) f = .fault r := rfl

@[simp] theorem andThen_refused (r : Refusal) (f : State → Host.Outcome State Fault Refusal) :
    andThen (.refused r) f = .refused r := rfl

/-- Everything a sequence can answer with a next state. -/
theorem andThen_inv {o : Host.Outcome State Fault Refusal} {f : State → Host.Outcome State Fault Refusal} {t : State}
    (h : andThen o f = .next t) : ∃ u, o = .next u ∧ f u = .next t := by
  cases o with
  | next u => exact ⟨u, rfl, h⟩
  | fault r => cases h
  | refused r => cases h

@[simp] theorem hostRun_zero (h : HostBehaviour) (s : State) : hostRun h 0 s = .next s := rfl

/-- One more moment of a run that has answered a next state. -/
theorem hostRun_succ {h : HostBehaviour} {n : Nat} {s t : State} (e : hostRun h n s = .next t) :
    hostRun h (n + 1) s = issue (h n) t := by
  rw [hostRun, e, andThen_next]

/-! ### The schedule is read by `step` alone -/

/-- The state with another schedule. -/
abbrev State.withSchedule (s : State) (l : List Transaction) : State := { s with schedule := l }

theorem readBytes_withSchedule (s : State) (l : List Transaction) : ∀ n a,
    readBytes (s.withSchedule l) a n = readBytes s a n
  | 0, _ => rfl
  | n + 1, a => by
    have e : memRead (s.withSchedule l) a = memRead s a := rfl
    rw [readBytes, readBytes, e, readBytes_withSchedule s l n]

theorem writeBytes_withSchedule (l : List Transaction) : ∀ (bs : List Byte) (s : State) (a : Nat),
    writeBytes (s.withSchedule l) a bs = Except.map (·.withSchedule l) (writeBytes s a bs)
  | [], _, _ => rfl
  | b :: bs, s, a => by
    have e : memWrite (s.withSchedule l) a b = Except.map (·.withSchedule l) (memWrite s a b) := by
      unfold memWrite
      split
      · rfl
      · split
        · cases hf : s.fontWrite <;> simp [Except.map, State.setByte]
        · rfl
    rw [writeBytes, writeBytes, e]
    cases memWrite s a b with
    | error why => rfl
    | ok t => exact writeBytes_withSchedule l bs t (a + 1)

/-- An instruction's end on another schedule. -/
theorem complete_withSchedule (s : State) (l : List Transaction) (r : Except Stop State) :
    complete (s.withSchedule l) (Except.map (·.withSchedule l) r) = mapNext (·.withSchedule l) (complete s r) := by
  rcases r with (e | f) | t <;> rfl

theorem skipIf_withSchedule (c : Bool) (s : State) (l : List Transaction) :
    skipIf c (s.withSchedule l) = (skipIf c s).withSchedule l := by cases c <;> rfl

theorem lowestFrom_withSchedule (s : State) (l : List Transaction) : ∀ n k,
    lowestFrom (s.withSchedule l) k n = lowestFrom s k n
  | 0, _ => rfl
  | n + 1, k => by rw [lowestFrom, lowestFrom, lowestFrom_withSchedule s l n]; rfl

theorem regsFrom_withSchedule (s : State) (l : List Transaction) : ∀ n k,
    (s.withSchedule l).regsFrom k n = s.regsFrom k n
  | 0, _ => rfl
  | n + 1, k => by rw [State.regsFrom, State.regsFrom, regsFrom_withSchedule s l n]; rfl

theorem setRegsFrom_withSchedule (l : List Transaction) : ∀ (bs : List Byte) (s : State) (k : Nat),
    (s.withSchedule l).setRegsFrom k bs = (s.setRegsFrom k bs).withSchedule l
  | [], _, _ => rfl
  | b :: bs, s, k => setRegsFrom_withSchedule l bs (s.setReg (BitVec.ofNat 4 k) b) (k + 1)

/-- No instruction reads or writes the schedule. -/
theorem exec_withSchedule (i : Instr) (s : State) (l : List Transaction) :
    exec i (s.withSchedule l) = mapNext (·.withSchedule l) (exec i s) := by
  have he : effAddr (s.withSchedule l) 0 = effAddr s 0 := rfl
  cases i <;> simp only [exec]
  case ret =>
    simp only [execRet, popPc]
    split <;> rfl
  case call =>
    simp only [execCall, pushPc]
    split <;> rfl
  case seImm | sneImm | seReg | sneReg | skp | sknp => exact congrArg _ (skipIf_withSchedule _ s l)
  case drw x y n =>
    simp only [execDrw]
    split
    · rfl
    · rw [readBytes_withSchedule, ← complete_withSchedule, he]
      cases readBytes s (effAddr s 0) n.toNat <;> rfl
  case ldVxK x =>
    have ha : awaitPress (s.withSchedule l) = (awaitPress s).withSchedule l := by
      rw [awaitPress, lowestPressed, lowestFrom_withSchedule]
      rfl
    simp only [execLdVxK, ha]
    cases s.wait with
    | running => rfl
    | awaitingKeyPress => rfl
    | awaitingKeyRelease k =>
      have hk : (s.withSchedule l).keyPressed k = s.keyPressed k := rfl
      simp only [hk]
      cases s.keyPressed k <;> rfl
  case ldB x =>
    rw [execLdB, execLdB, ← complete_withSchedule, ← writeBytes_withSchedule]
    rfl
  case stRegs x =>
    rw [execStRegs, execStRegs, ← complete_withSchedule, he, regsFrom_withSchedule, writeBytes_withSchedule]
    cases writeBytes s (effAddr s 0) (s.regsFrom 0 (x.toNat + 1)) <;> rfl
  case ldRegs x =>
    rw [execLdRegs, execLdRegs, ← complete_withSchedule, he, readBytes_withSchedule]
    cases readBytes s (effAddr s 0) (x.toNat + 1) with
    | error why => rfl
    | ok bs => exact congrArg (fun u => complete (s.withSchedule l) (.ok (State.addToI u _))) (setRegsFrom_withSchedule l bs s 0)
  all_goals rfl

/-- No transaction reads or writes the schedule. -/
theorem perform_withSchedule (tr : Transaction) (s : State) (l : List Transaction) :
    perform tr (s.withSchedule l) = mapNext (·.withSchedule l) (perform tr s) := by
  have hc : cycle (s.withSchedule l) = mapNext (·.withSchedule l) (cycle s) := by
    have hf : fetch (s.withSchedule l).beginCycle = fetch s.beginCycle := rfl
    rw [cycle, cycle, hf]
    cases fetch s.beginCycle with
    | error why => cases why <;> rfl
    | ok w =>
      simp only [runWord]
      cases decodeWord w with
      | none => rfl
      | some i => exact exec_withSchedule i s.beginCycle.advance l
  have hl : ∀ rom, loadRom (s.withSchedule l) rom = mapNext (·.withSchedule l) (loadRom s rom) := by
    intro rom
    rw [loadRom, loadRom]
    split <;> rfl
  unfold perform
  cases s.halted with
  | none => cases tr <;> first | exact hc | exact hl _ | rfl
  | some e => cases tr <;> rfl

/-- One more step at the end of a run of any core. -/
theorem run_succ_of_core (M : Host.Core) (n : Nat) : ∀ s : M.State,
    (∀ t, M.run n s = .next t → M.run (n + 1) s = M.step t) ∧
    (∀ r, M.run n s = .fault r → M.run (n + 1) s = .fault r) ∧
    (∀ r, M.run n s = .refused r → M.run (n + 1) s = .refused r) := by
  induction n with
  | zero =>
    intro s
    simp only [Host.Core.run]
    cases h : M.step s <;> simp_all
  | succ n ih =>
    intro s
    rw [Host.Core.run, Host.Core.run]
    cases M.step s with
    | next t => exact ih t
    | fault r => simp
    | refused r => simp

/-- One more step at the end of a run. -/
theorem core_run_succ (n : Nat) (s : State) :
    Sys2Proof.core.run (n + 1) s = andThen (Sys2Proof.core.run n s) step := by
  have h := run_succ_of_core Sys2Proof.core n s
  generalize ho : Sys2Proof.core.run n s = o at h
  cases o with
  | next t => exact h.1 t rfl
  | fault r => exact h.2.1 r rfl
  | refused r => exact h.2.2 r rfl

/-- `n` steps of a machine whose schedule begins with a host's first `n` transactions are the host's run: the finite
schedule leaves out no behaviour of a host that issues something at every moment. -/
theorem run_schedule (h : Nat → Transaction) (s : State) (n : Nat) : ∀ rest : List Transaction,
    Sys2Proof.core.run n (s.withSchedule ((List.range n).map h ++ rest))
      = mapNext (·.withSchedule rest) (hostRun (fun m => some (h m)) n s) := by
  induction n with
  | zero => intro rest; rfl
  | succ n ih =>
    intro rest
    rw [List.range_succ, List.map_append, List.append_assoc, core_run_succ, ih, hostRun]
    cases hostRun (fun m => some (h m)) n s with
    | next t =>
      have e : step (t.withSchedule (h n :: rest)) = perform (h n) (t.withSchedule rest) := rfl
      exact e.trans (perform_withSchedule (h n) t rest)
    | fault r => rfl
    | refused r => rfl

end Sys2Proof.Machine
end

