-- ==== Sys2Proof/Laws/PerInstr.lean ====
section
/-! SUPPORT. Statements made per instruction: the word the encoder gives an instruction is legal by the family lists
of spec/30_encoding.md R97. -/

namespace Sys2Proof.Laws.EncodedWordLegal

/-- The encoded word is not in R97's lists of illegal words. -/
def Statement (i : Instr) : Prop := legalWord (encode i) = true

/-- A word whose family has no illegal member is legal. -/
theorem legal_of_family {w : Word}
    (h : w.extractLsb' 12 4 ∉ ([0x0, 0x5, 0x8, 0x9, 0xE, 0xF] : List Nibble)) : legalWord w = true := by
  simp only [List.mem_cons, List.not_mem_nil, or_false, not_or, BitVec.ofNat_eq_ofNat] at h
  simp [legalWord, illegalWord, h]

theorem cls : Statement .cls := by unfold Statement; decide
theorem ret : Statement .ret := by unfold Statement; decide
theorem jp (nnn : Addr12) : Statement (.jp nnn) := legal_of_family (by simp [encode])
theorem call (nnn : Addr12) : Statement (.call nnn) := legal_of_family (by simp [encode])
theorem seImm (x : Nibble) (kk : Byte) : Statement (.seImm x kk) := legal_of_family (by simp [encode])
theorem sneImm (x : Nibble) (kk : Byte) : Statement (.sneImm x kk) := legal_of_family (by simp [encode])
theorem seReg (x y : Nibble) : Statement (.seReg x y) := by simp [Statement, legalWord, illegalWord, encode]
theorem ldImm (x : Nibble) (kk : Byte) : Statement (.ldImm x kk) := legal_of_family (by simp [encode])
theorem addImm (x : Nibble) (kk : Byte) : Statement (.addImm x kk) := legal_of_family (by simp [encode])
theorem ldReg (x y : Nibble) : Statement (.ldReg x y) := by simp [Statement, legalWord, illegalWord, encode]
theorem orReg (x y : Nibble) : Statement (.orReg x y) := by simp [Statement, legalWord, illegalWord, encode]
theorem andReg (x y : Nibble) : Statement (.andReg x y) := by simp [Statement, legalWord, illegalWord, encode]
theorem xorReg (x y : Nibble) : Statement (.xorReg x y) := by simp [Statement, legalWord, illegalWord, encode]
theorem addReg (x y : Nibble) : Statement (.addReg x y) := by simp [Statement, legalWord, illegalWord, encode]
theorem subReg (x y : Nibble) : Statement (.subReg x y) := by simp [Statement, legalWord, illegalWord, encode]
theorem shrReg (x y : Nibble) : Statement (.shrReg x y) := by simp [Statement, legalWord, illegalWord, encode]
theorem subnReg (x y : Nibble) : Statement (.subnReg x y) := by simp [Statement, legalWord, illegalWord, encode]
theorem shlReg (x y : Nibble) : Statement (.shlReg x y) := by simp [Statement, legalWord, illegalWord, encode]
theorem sneReg (x y : Nibble) : Statement (.sneReg x y) := by simp [Statement, legalWord, illegalWord, encode]
theorem ldI (nnn : Addr12) : Statement (.ldI nnn) := legal_of_family (by simp [encode])
theorem jpV0 (nnn : Addr12) : Statement (.jpV0 nnn) := legal_of_family (by simp [encode])
theorem rnd (x : Nibble) (kk : Byte) : Statement (.rnd x kk) := legal_of_family (by simp [encode])
theorem drw (x y n : Nibble) : Statement (.drw x y n) := legal_of_family (by simp [encode])
theorem skp (x : Nibble) : Statement (.skp x) := by simp [Statement, legalWord, illegalWord, encode]
theorem sknp (x : Nibble) : Statement (.sknp x) := by simp [Statement, legalWord, illegalWord, encode]
theorem ldVxDt (x : Nibble) : Statement (.ldVxDt x) := by simp [Statement, legalWord, illegalWord, encode]
theorem ldVxK (x : Nibble) : Statement (.ldVxK x) := by simp [Statement, legalWord, illegalWord, encode]
theorem ldDtVx (x : Nibble) : Statement (.ldDtVx x) := by simp [Statement, legalWord, illegalWord, encode]
theorem ldStVx (x : Nibble) : Statement (.ldStVx x) := by simp [Statement, legalWord, illegalWord, encode]
theorem addI (x : Nibble) : Statement (.addI x) := by simp [Statement, legalWord, illegalWord, encode]
theorem ldF (x : Nibble) : Statement (.ldF x) := by simp [Statement, legalWord, illegalWord, encode]
theorem ldB (x : Nibble) : Statement (.ldB x) := by simp [Statement, legalWord, illegalWord, encode]
theorem stRegs (x : Nibble) : Statement (.stRegs x) := by simp [Statement, legalWord, illegalWord, encode]
theorem ldRegs (x : Nibble) : Statement (.ldRegs x) := by simp [Statement, legalWord, illegalWord, encode]

end Sys2Proof.Laws.EncodedWordLegal
end

