-- ==== Sys2Proof/Laws/Scheduler.lean ====
section
/-! SUPPORT. What a frame of the scheduler can issue: at most CYCLES_PER_TICK cycles, and the tick once
(spec/70_reset_and_hazards.md R291; log entries 20 and 28). -/

namespace Sys2Proof.Machine

theorem performAll_append (as bs : List Transaction) (s : State) :
    performAll (as ++ bs) s = andThen (performAll as s) (performAll bs) := by
  induction as generalizing s with
  | nil => rfl
  | cons tr as ih =>
    rw [List.cons_append, performAll, performAll]
    cases perform tr s with
    | next t => exact ih t
    | fault r => rfl
    | refused r => rfl

theorem performAll_one (tr : Transaction) (s : State) : performAll [tr] s = perform tr s := by
  rw [performAll]
  cases perform tr s <;> rfl

/-- Everything the cycles' part of a frame can do: it issues a list of transactions that holds at most `n` cycles and
no tick. -/
theorem runEvents_issues (stopOnDraw : Bool) : ∀ (es : List Config.FrameEvent) (n : Nat) (s : State),
    ∃ trs, runEvents stopOnDraw n es s = performAll trs s ∧ trs.count .cycle ≤ n ∧ trs.count .tickTimers = 0
  | [], _, _ => ⟨[], by rw [runEvents]; rfl, by simp, by simp⟩
  | .setKey k pressed :: es, n, s => by
    rw [runEvents]
    cases h : perform (.setKey k pressed) s with
    | next t =>
      obtain ⟨trs, e, hc, ht⟩ := runEvents_issues stopOnDraw es n t
      exact ⟨.setKey k pressed :: trs, by rw [performAll, h]; exact e, by simpa using hc, by simpa using ht⟩
    | fault r => exact ⟨[.setKey k pressed], by rw [performAll, h]; rfl, by simp, by simp⟩
    | refused r => exact ⟨[.setKey k pressed], by rw [performAll, h]; rfl, by simp, by simp⟩
  | .cycle :: es, 0, s => by
    rw [runEvents]
    exact runEvents_issues stopOnDraw es 0 s
  | .cycle :: es, n + 1, s => by
    have one : ∀ o, perform .cycle s = o → ∃ trs, o = performAll trs s ∧ trs.count .cycle ≤ n + 1 ∧
        trs.count .tickTimers = 0 := fun o h => ⟨[.cycle], by rw [performAll_one, h], by simp, by simp⟩
    rw [runEvents]
    cases h : perform .cycle s with
    | next t =>
      rw [andThen_next, whileRunning]
      cases t.halted with
      | none =>
        obtain ⟨trs, e, hc, ht⟩ := runEvents_issues stopOnDraw es (cyclesLeft stopOnDraw n t) t
        have hn : cyclesLeft stopOnDraw n t ≤ n := by
          unfold cyclesLeft
          split <;> omega
        refine ⟨.cycle :: trs, by rw [performAll, h]; exact e, ?_, by simpa using ht⟩
        rw [List.count_cons_self]
        omega
      | some e => exact one _ h
    | fault r => exact one _ h
    | refused r => exact one _ h

/-- Everything a logical tick can do: it issues a list of transactions that holds at most CYCLES_PER_TICK cycles, at most
one tick, and exactly one where it leaves a running machine. -/
theorem runTick_issues (cfg : Config.Scheduler) (es : List Config.FrameEvent) (s : State) :
    ∃ trs, runTick cfg es s = performAll trs s ∧ trs.count .cycle ≤ cfg.cyclesPerTick ∧ trs.count .tickTimers ≤ 1 ∧
      ∀ t, runTick cfg es s = .next t → t.halted = none → trs.count .tickTimers = 1 := by
  unfold runTick
  cases cfg.tickOrder with
  | beforeCycles =>
    simp only
    cases h : perform .tickTimers s with
    | next u =>
      obtain ⟨trs, e, hc, ht⟩ := runEvents_issues cfg.stopOnDraw es cfg.cyclesPerTick u
      exact ⟨.tickTimers :: trs, by rw [performAll, h]; exact e, by simpa using hc, by simp [ht], by simp [ht]⟩
    | fault r => exact ⟨[.tickTimers], by rw [performAll_one, h]; rfl, by simp, by simp, by simp⟩
    | refused r => exact ⟨[.tickTimers], by rw [performAll_one, h]; rfl, by simp, by simp, by simp⟩
  | afterCycles =>
    simp only
    obtain ⟨trs, e, hc, ht⟩ := runEvents_issues cfg.stopOnDraw es cfg.cyclesPerTick s
    cases h : runEvents cfg.stopOnDraw cfg.cyclesPerTick es s with
    | next u =>
      rw [andThen_next, whileRunning]
      cases hu : u.halted with
      | none =>
        refine ⟨trs ++ [.tickTimers], ?_, by simpa using hc, by simp [ht], by simp [ht]⟩
        rw [performAll_append, ← e, h, andThen_next, performAll_one]
      | some err =>
        refine ⟨trs, by rw [← e, h], hc, by omega, ?_⟩
        intro t et hn
        cases et
        rw [hu] at hn
        cases hn
    | fault r => exact ⟨trs, by rw [← e, h]; rfl, hc, by omega, by simp⟩
    | refused r => exact ⟨trs, by rw [← e, h]; rfl, hc, by omega, by simp⟩

/-- Everything the answer to an error can do (R252, R282). -/
theorem answerError_cases (cfg : Config.Scheduler) (s : State) :
    (s.halted = none ∨ cfg.onError = .halt) ∧ answerError cfg s = .next s ∨
    ∃ e rom, s.halted = some e ∧ cfg.onError = .reset rom ∧
      answerError cfg s = performAll [.reset, .load rom] s := by
  unfold answerError
  cases hs : s.halted with
  | none => exact Or.inl ⟨Or.inl rfl, rfl⟩
  | some e =>
    cases ho : cfg.onError with
    | halt => exact Or.inl ⟨Or.inr rfl, rfl⟩
    | reset rom =>
      refine Or.inr ⟨e, rom, rfl, rfl, ?_⟩
      rw [performAll]
      cases perform .reset s with
      | next t => exact (performAll_one (.load rom) t).symm
      | fault r => rfl
      | refused r => rfl

/-- A scheduler that halts leaves a halted machine as it is, whatever frames are due. -/
theorem runFrames_halted (cfg : Config.Scheduler) (ho : cfg.onError = .halt) {e : Error} {s : State}
    (hs : s.halted = some e) : ∀ frames, runFrames cfg frames s = .next s
  | [] => rfl
  | es :: frames => by
    have h : runFrame cfg es s = .next s := by
      rw [runFrame, whileRunning]
      simp [hs, answerError, ho]
    rw [runFrames, h, andThen_next]
    exact runFrames_halted cfg ho hs frames

end Sys2Proof.Machine
end

