-- ==== Sys2Proof/Laws/Screen.lean ====
section
/-! SUPPORT. Reading pixels after they are written (spec/44_display.md R201, R202, R211). -/

namespace Sys2Proof.Machine

/-- A pixel reads what was last written to it, coordinates reduced modulo the grid; any other keeps its value. -/
theorem Grid.get_set (g : Grid) (px py qx qy : Nat) (on : Bool) :
    Grid.get (Grid.set g px py on) qx qy
      = if qx % 64 = px % 64 ∧ qy % 32 = py % 32 then on else Grid.get g qx qy := by
  unfold Grid.get Grid.set
  by_cases hy : py % 32 = qy % 32
  · by_cases hx : px % 64 = qx % 64
    · simp [hx, hy]
    · have hx' : ¬ qx % 64 = px % 64 := fun e => hx e.symm
      simp [hy, hx, hx']
  · have hy' : ¬ qy % 32 = py % 32 := fun e => hy e.symm
    simp [hy, hy']

theorem Grid.get_blank (px py : Nat) : Grid.get Grid.blank px py = false := by
  simp [Grid.get, Grid.blank]

/-- Pixels are read modulo the grid. -/
theorem Grid.get_mod (g : Grid) (px py : Nat) : Grid.get g (px % 64) (py % 32) = Grid.get g px py := by
  simp [Grid.get]

/-- Two displays with the same pixels are equal. -/
theorem Grid.ext_get {g h : Grid} (e : ∀ px py, px < 64 → py < 32 → Grid.get g px py = Grid.get h px py) : g = h := by
  apply Vector.ext
  intro j hj
  apply Vector.ext
  intro k hk
  have := e k j hk hj
  simpa [Grid.get, Nat.mod_eq_of_lt hj, Nat.mod_eq_of_lt hk] using this

/-- A sprite bit of 0 leaves everything. -/
@[simp] theorem drawBit_false (px py : Nat) (acc : Bool × Grid) : drawBit false px py acc = acc := rfl

/-- A sprite bit of 1 inverts the pixel and notes an on-to-off transition (R203, R206). -/
theorem drawBit_true (px py : Nat) (acc : Bool × Grid) :
    drawBit true px py acc
      = (acc.1 || Grid.get acc.2 px py, Grid.set acc.2 px py (!Grid.get acc.2 px py)) := rfl

/-- What a sprite bit does to any pixel. -/
theorem get_drawBit (bit : Bool) (px py qx qy : Nat) (acc : Bool × Grid) :
    Grid.get (drawBit bit px py acc).2 qx qy
      = (Grid.get acc.2 qx qy ^^ (bit && decide (qx % 64 = px % 64 ∧ qy % 32 = py % 32))) := by
  cases bit
  · simp
  · rw [drawBit_true, Grid.get_set]
    by_cases h : qx % 64 = px % 64 ∧ qy % 32 = py % 32
    · have e : Grid.get acc.2 qx qy = Grid.get acc.2 px py := by
        rw [← Grid.get_mod, h.1, h.2, Grid.get_mod]
      simp [h, e]
    · simp [h]

end Sys2Proof.Machine
end

