-- ==== Sys2Proof/Tests/Slice0.lean ====
section
/-! SUPPORT. The model's own tests: expected results are the vectors of spec/95_test_vectors.md (named in each
comment) or words written out from spec/30_encoding.md R96. -/

namespace Sys2Proof.Tests

open Sys2Proof.Machine

/-! ### Well-formedness -/

theorem test_illegal_words_refused :
    [0x0000, 0x00E1, 0x0123, 0x5121, 0x912F, 0x8128, 0x812F, 0xE19F, 0xF100].all (fun w => !legalWord w) = true := by
  decide

theorem test_rom_of_3585_bytes_refused : romFits (List.replicate 3585 0) = false := by
  rw [romFits, List.length_replicate]
  decide

theorem test_every_field_value_wellFormed : Instr.wellFormed (.drw 0xF 0xF 0xF) = true := by decide

/-! ### Decoding: words written out from R96, a field in each place distinct -/

theorem test_decode_control :
    decodeWord 0x00EE = some .ret ∧ decodeWord 0x1234 = some (.jp 0x234) ∧ decodeWord 0x2ABC = some (.call 0xABC) ∧
    decodeWord 0x3A42 = some (.seImm 0xA 0x42) ∧ decodeWord 0x4B17 = some (.sneImm 0xB 0x17) ∧
    decodeWord 0x5C70 = some (.seReg 0xC 0x7) ∧ decodeWord 0x9D30 = some (.sneReg 0xD 0x3) ∧
    decodeWord 0xB987 = some (.jpV0 0x987) := by decide

theorem test_decode_alu :
    decodeWord 0x6E2A = some (.ldImm 0xE 0x2A) ∧ decodeWord 0x73FF = some (.addImm 0x3 0xFF) ∧
    decodeWord 0x8120 = some (.ldReg 1 2) ∧ decodeWord 0x8121 = some (.orReg 1 2) ∧
    decodeWord 0x8122 = some (.andReg 1 2) ∧ decodeWord 0x8123 = some (.xorReg 1 2) ∧
    decodeWord 0x8124 = some (.addReg 1 2) ∧ decodeWord 0x8125 = some (.subReg 1 2) ∧
    decodeWord 0x8126 = some (.shrReg 1 2) ∧ decodeWord 0x8127 = some (.subnReg 1 2) ∧
    decodeWord 0x812E = some (.shlReg 1 2) ∧ decodeWord 0xC30F = some (.rnd 0x3 0x0F) := by decide

theorem test_decode_index_memory :
    decodeWord 0xA300 = some (.ldI 0x300) ∧ decodeWord 0xF21E = some (.addI 2) ∧ decodeWord 0xF329 = some (.ldF 3) ∧
    decodeWord 0xF433 = some (.ldB 4) ∧ decodeWord 0xF555 = some (.stRegs 5) ∧ decodeWord 0xF665 = some (.ldRegs 6) := by
  decide

theorem test_decode_display_keys_timers :
    decodeWord 0x00E0 = some .cls ∧ decodeWord 0xD125 = some (.drw 1 2 5) ∧ decodeWord 0xE79E = some (.skp 7) ∧
    decodeWord 0xE8A1 = some (.sknp 8) ∧ decodeWord 0xF907 = some (.ldVxDt 9) ∧ decodeWord 0xFA0A = some (.ldVxK 0xA) ∧
    decodeWord 0xFB15 = some (.ldDtVx 0xB) ∧ decodeWord 0xFC18 = some (.ldStVx 0xC) := by decide

theorem test_encode_is_the_written_word :
    encode (.drw 1 2 5) = 0xD125 ∧ encode (.subnReg 1 2) = 0x8127 ∧ encode (.jp 0x234) = 0x1234 ∧
    encodeBytes (.call 0x206) = [0x22, 0x06] := by decide

theorem test_decode_bytes_big_endian :
    decodeBytes [0x60, 0x2A, 0x77] = .ok (.ldImm 0 0x2A, [0x77]) ∧
    decodeBytes [0x01, 0x23] = .error (.unknownOpcode 0x0123) ∧ decodeBytes [0x60] = .error .truncated := by decide

theorem test_decode_table_word : decodeTableWord 16 0x8125 = some (.subReg 1 2) ∧ decodeTableWord 16 0x0000 = none := by
  decide

/-! ### Running one instruction -/

/-- The fresh machine with a word at pc. -/
def atWord (w : Nat) (s : State := State.reset) : State := s.withFetchWord 16 w

/-- What holds of the next state. -/
def after (o : Host.Outcome State Fault Refusal) (p : State → Bool) : Bool :=
  match o with
  | .next t => p t
  | .fault _ => false
  | .refused _ => false

/-- The fresh machine with registers set. -/
def withRegs (l : List (Nibble × Byte)) (s : State := State.reset) : State :=
  l.foldl (fun s rb => s.setReg rb.1 rb.2) s

/-- A raised error leaves pc and latches. -/
def raised (o : Host.Outcome State Fault Refusal) (e : Error) (pc : Word) : Bool :=
  after o (fun t => t.halted == some e && t.pc == pc)

-- T1, T4
theorem test_unknown_opcode :
    raised (step State.reset) (.unknownOpcode 0x0000) 0x200 = true ∧
    raised (step (atWord 0x5121)) (.unknownOpcode 0x5121) 0x200 = true := by decide

-- T9, T11, E4
theorem test_fetch_edges :
    after (step (atWord 0x6A01 { State.reset with pc := 0xFFE })) (fun t => t.reg 0xA == 1 && t.pc == 0x1000) = true ∧
    raised (step { State.reset with pc := 0xFFF }) (.addressOutOfRange 0x1000) 0xFFF = true ∧
    raised (step { State.reset with pc := 0x1000 }) (.addressOutOfRange 0x1000) 0x1000 = true := by decide

-- C1, C2
theorem test_jp : after (step (atWord 0x1234)) (fun t => t.pc == 0x234) = true ∧
    after (step (atWord 0x1203)) (fun t => t.pc == 0x203) = true := by decide

-- C6, C7
theorem test_jpV0 : after (step (atWord 0xBFFF (withRegs [(0, 0xFF)]))) (fun t => t.pc == 0x10FE) = true ∧
    after (step (atWord 0xB500 (withRegs [(0, 0x10), (5, 0x77)]))) (fun t => t.pc == 0x510) = true := by decide

-- C8, C9
theorem test_call : after (step (atWord 0x2206))
      (fun t => t.stack[0] == 0x202 && t.sp == 1 && t.pc == 0x206) = true ∧
    raised (step (atWord 0x2300 { State.reset with sp := 16 })) .stackOverflow 0x200 = true := by decide

-- C10, C11
theorem test_ret : raised (step (atWord 0x00EE)) .stackUnderflow 0x200 = true ∧
    after (step (atWord 0x00EE { State.reset with sp := 2, stack := (State.reset.stack.set 0 0x222).set 1 0x444 }))
      (fun t => t.sp == 1 && t.pc == 0x444 && t.stack[1] == 0x444) = true := by decide

-- C12, C13
theorem test_seImm : after (step (atWord 0x3310 (withRegs [(3, 0x10)]))) (fun t => t.pc == 0x204) = true ∧
    after (step (atWord 0x3310 (withRegs [(3, 0x11)]))) (fun t => t.pc == 0x202) = true := by decide

-- C14, C15
theorem test_sneImm : after (step (atWord 0x4310 (withRegs [(3, 0x10)]))) (fun t => t.pc == 0x202) = true ∧
    after (step (atWord 0x4310)) (fun t => t.pc == 0x204) = true := by decide

-- C16, C17
theorem test_seReg : after (step (atWord 0x5120 (withRegs [(1, 7), (2, 7)]))) (fun t => t.pc == 0x204) = true ∧
    after (step (atWord 0x5770)) (fun t => t.pc == 0x204) = true := by decide

-- C18, C19
theorem test_sneReg : after (step (atWord 0x9120 (withRegs [(1, 7), (2, 8)]))) (fun t => t.pc == 0x204) = true ∧
    after (step (atWord 0x9770)) (fun t => t.pc == 0x202) = true := by decide

-- A2, X7
theorem test_ldImm : after (step (atWord 0x602A)) (fun t => t.reg 0 == 42 && t.pc == 0x202) = true ∧
    after (step (atWord 0x6F05 (withRegs [(0xF, 1)]))) (fun t => t.reg 0xF == 5) = true := by decide

-- A4, A5
theorem test_addImm : after (step (atWord 0x7201 (withRegs [(2, 0xFF)])))
      (fun t => t.reg 2 == 0 && t.reg 0xF == 0) = true ∧
    after (step (atWord 0x72FF (withRegs [(2, 5)]))) (fun t => t.reg 2 == 4) = true := by decide

-- A6
theorem test_ldReg : after (step (atWord 0x8450 (withRegs [(5, 0x33)]))) (fun t => t.reg 4 == 0x33) = true := by decide

-- A7, A11
theorem test_orReg : after (step (atWord 0x8121 (withRegs [(1, 0x0F), (2, 0xF0), (0xF, 1)])))
      (fun t => t.reg 1 == 0xFF && t.reg 0xF == 0) = true ∧
    after (step (atWord 0x8F11 (withRegs [(1, 0xF0), (0xF, 0x0F)]))) (fun t => t.reg 0xF == 0) = true := by decide

-- A8
theorem test_andReg : after (step (atWord 0x8122 (withRegs [(1, 0x3C), (2, 0x0F), (0xF, 1)])))
      (fun t => t.reg 1 == 0x0C && t.reg 0xF == 0) = true := by decide

-- A9, A10
theorem test_xorReg : after (step (atWord 0x8123 (withRegs [(1, 0xFF), (2, 0x0F)])))
      (fun t => t.reg 1 == 0xF0 && t.reg 0xF == 0) = true ∧
    after (step (atWord 0x8113 (withRegs [(1, 0x5A)]))) (fun t => t.reg 1 == 0) = true := by decide

-- A12, A16, A17
theorem test_addReg : after (step (atWord 0x8124 (withRegs [(1, 0xFF), (2, 1)])))
      (fun t => t.reg 1 == 0 && t.reg 0xF == 1) = true ∧
    after (step (atWord 0x8F14 (withRegs [(1, 0xFF), (0xF, 2)]))) (fun t => t.reg 0xF == 1) = true ∧
    after (step (atWord 0x81F4 (withRegs [(1, 4), (0xF, 3)]))) (fun t => t.reg 1 == 7 && t.reg 0xF == 0) = true := by
  decide

-- A18, A20
theorem test_subReg : after (step (atWord 0x8125 (withRegs [(1, 7), (2, 7)])))
      (fun t => t.reg 1 == 0 && t.reg 0xF == 1) = true ∧
    after (step (atWord 0x8125 (withRegs [(1, 5), (2, 7)]))) (fun t => t.reg 1 == 0xFE && t.reg 0xF == 0) = true := by
  decide

-- A21, A22
theorem test_subnReg : after (step (atWord 0x8127 (withRegs [(1, 5), (2, 7)])))
      (fun t => t.reg 1 == 2 && t.reg 0xF == 1) = true ∧
    after (step (atWord 0x8127 (withRegs [(1, 1)]))) (fun t => t.reg 1 == 0xFF && t.reg 0xF == 0) = true := by decide

-- A24, A30
theorem test_shrReg : after (step (atWord 0x8126 (withRegs [(1, 0xAA), (2, 5)])))
      (fun t => t.reg 1 == 2 && t.reg 0xF == 1 && t.reg 2 == 5) = true ∧
    after (step (atWord 0x8F26 (withRegs [(2, 3)]))) (fun t => t.reg 0xF == 1) = true := by decide

-- A27, A31
theorem test_shlReg : after (step (atWord 0x812E (withRegs [(2, 0x81)])))
      (fun t => t.reg 1 == 2 && t.reg 0xF == 1) = true ∧
    after (step (atWord 0x822E (withRegs [(2, 0x40)]))) (fun t => t.reg 2 == 0x80 && t.reg 0xF == 0) = true := by decide

-- A32
theorem test_rnd : ((State.reset.setRandom 3 0x0F 0x5A).reg 3 == 0x0A) = true := by decide

-- A33: kk = 0 gives 0 whatever the draw
theorem test_rnd_zero_mask : ∀ r : Byte, r &&& 0 = 0 := by simp

-- M1
theorem test_ldI : after (step (atWord 0xA300)) (fun t => t.i == 0x300) = true := by decide

-- M3, M4
theorem test_addI : after (step (atWord 0xF21E { withRegs [(2, 1)] with i := 0xFFFF }))
      (fun t => t.i == 0 && t.reg 0xF == 0) = true ∧
    after (step (atWord 0xF21E { withRegs [(2, 1)] with i := 0xFFF })) (fun t => t.i == 0x1000) = true := by decide

-- M5, M6
theorem test_ldF : after (step (atWord 0xF029 (withRegs [(0, 5)]))) (fun t => t.i == 0x19) = true ∧
    after (step (atWord 0xF029 (withRegs [(0, 0x1A)]))) (fun t => t.i == 0x32) = true := by decide

-- M7, M12
theorem test_ldB : after (step (atWord 0xF033 { withRegs [(0, 0xFE)] with i := 0x300 }))
      (fun t => t.bytesFrom 0x300 3 == [2, 5, 4] && t.i == 0x300) = true ∧
    after (step (atWord 0xF033 { withRegs [(0, 0x80)] with i := 0xFFD }))
      (fun t => t.bytesFrom 0xFFD 3 == [1, 2, 8]) = true := by decide

-- M13, M20
theorem test_ldB_stops : raised (step (atWord 0xF033 { State.reset with i := 0xFFE })) (.addressOutOfRange 0x1000) 0x200
      = true ∧
    (match step (atWord 0xF155 { State.reset with i := 0x4E }) with
      | .refused r => r == .fontWrite 0x4E | .next _ => false | .fault _ => false) = true := by decide

-- M14, M17
theorem test_stRegs : after (step (atWord 0xF255 { withRegs [(0, 1), (1, 2), (2, 3)] with i := 0x300 }))
      (fun t => t.bytesFrom 0x300 4 == [1, 2, 3, 0] && t.i == 0x303) = true ∧
    after (step (atWord 0xF155 { State.reset with i := 0xFFF }))
      (fun t => t.halted == some (.addressOutOfRange 0x1000) && t.i == 0xFFF && t.byteAt 0xFFF == 0) = true := by decide

-- M19
theorem test_stRegs_font_store :
    after (step (atWord 0xF055 { withRegs [(0, 0x11)] with i := 0x4F, fontWrite := .store }))
      (fun t => t.byteAt 0x4F == 0x11 && t.i == 0x50) = true := by decide

-- M24, M25
theorem test_ldRegs : raised (step (atWord 0xF265 { State.reset with i := 0xFFE })) (.addressOutOfRange 0x1000) 0x200
      = true ∧
    after (step (atWord 0xF465)) (fun t => t.v.toList.take 6 == [0xF0, 0x90, 0x90, 0x90, 0xF0, 0] && t.i == 5) = true := by
  decide

/-- The fresh machine with I = 0x300 and bytes there. -/
def spriteAt300 (bs : List Byte) (s : State := State.reset) : State :=
  { s with i := 0x300, mem := Memory.writeList s.font s.mem 0x300 bs }

-- D2
theorem test_cls : after (step (atWord 0x00E0 { State.reset.setPixel 3 4 true with vblank := true }))
      (fun t => !getPixel t 3 4 && t.vblank && !t.drew) = true := by decide

-- D6, at the sprite's corners and just outside them
theorem test_drw_wraps : after (step (atWord 0xD012 (spriteAt300 [0xFF, 0x81] (withRegs [(0, 0x3E), (1, 0x1F)]))))
      (fun t => [(62, 31), (0, 31), (5, 31), (62, 0), (5, 0)].all (fun p => getPixel t p.1 p.2) &&
        !getPixel t 6 31 && !getPixel t 63 0 && t.reg 0xF == 0 && t.drew && t.vblank) = true := by decide

-- D8, at the edges of the erased run
theorem test_drw_collides : after (step (atWord 0xD001 { spriteAt300 [0x3C] with
        pix := (drawSprite Grid.blank 0 0 [0xFF]).2 }))
      (fun t => [1, 6].all (fun c => getPixel t c 0) && !([2, 5].any (fun c => getPixel t c 0)) && t.reg 0xF == 1) = true := by decide

-- D11, D12
theorem test_drw_stops : raised (step (atWord 0xD002 { State.reset with i := 0xFFF })) (.addressOutOfRange 0x1000) 0x200
      = true ∧
    after (step (atWord 0xD00F { State.reset with i := 0xFFFF, vblank := true }))
      (fun t => t.pc == 0x200 && t.halted == none && !t.drew) = true := by decide

-- D14
theorem test_drw_x_is_F : after (step (atWord 0xDF11 (spriteAt300 [0x80] (withRegs [(0xF, 8)]))))
      (fun t => getPixel t 8 0 && !getPixel t 0 0 && t.reg 0xF == 0) = true := by decide

-- K2
theorem test_skp : after (step (atWord 0xE19E ((withRegs [(1, 0x15)]).setKey 5 true))) (fun t => t.pc == 0x204)
    = true := by decide

-- K4, K5
theorem test_sknp : after (step (atWord 0xE1A1 (withRegs [(1, 5)]))) (fun t => t.pc == 0x204) = true ∧
    after (step (atWord 0xE1A1 ((withRegs [(1, 5)]).setKey 5 true))) (fun t => t.pc == 0x202) = true := by decide

-- K6, K7
theorem test_ldVxK_press : after (step (atWord 0xF30A)) (fun t => t.pc == 0x200 && t.wait == .awaitingKeyPress) = true ∧
    after (step (atWord 0xF30A { (State.reset.setKey 9 true).setKey 2 true with wait := .awaitingKeyPress }))
      (fun t => t.pc == 0x200 && t.wait == .awaitingKeyRelease 2) = true := by decide

-- K8, K9
theorem test_ldVxK_release :
    after (step (atWord 0xF30A { State.reset.setKey 2 true with wait := .awaitingKeyRelease 2 }))
      (fun t => t.pc == 0x200 && t.wait == .awaitingKeyRelease 2) = true ∧
    after (step (atWord 0xF30A { State.reset.setKey 9 true with wait := .awaitingKeyRelease 2 }))
      (fun t => t.pc == 0x202 && t.wait == .running && t.reg 3 == 2) = true := by decide

-- K11
theorem test_ldVxDt : after (step (atWord 0xF307 { State.reset with dt := 0x3C })) (fun t => t.reg 3 == 0x3C)
    = true := by decide

-- K12
theorem test_ldDtVx : after (step (atWord 0xF315 (withRegs [(3, 0x3C)]))) (fun t => t.dt == 0x3C) = true := by decide

-- K13
theorem test_ldStVx : after (step (atWord 0xF418 (withRegs [(4, 2)])))
      (fun t => t.st == 2 && tone t && tone t.tickTimers && !tone t.tickTimers.tickTimers) = true := by decide

/-! ### The host's transactions -/

/-- A machine whose next transaction is the given one. -/
def withTransaction (tr : Transaction) (s : State := State.reset) : State := { s with schedule := [tr] }

-- K14, K15
theorem test_tick : after (step (withTransaction .tickTimers { State.reset with vblank := true }))
      (fun t => t.dt == 0 && t.st == 0 && !t.vblank) = true ∧
    after (step (withTransaction .tickTimers { State.reset with dt := 5, st := 1 }))
      (fun t => t.dt == 4 && t.st == 0 && !tone t) = true := by decide

-- X7: ROM 60 2A is loaded at 0x200
theorem test_load : after (step (withTransaction (.load [0x60, 0x2A])))
      (fun t => t.bytesFrom 0x1FF 4 == [0, 0x60, 0x2A, 0] && t.pc == 0x200) = true := by decide

-- E3
theorem test_load_too_large : loadRom State.reset (List.replicate 3585 0)
    = .next { State.reset with halted := some (.romTooLarge 3585) } := by
  rw [loadRom, romFits, List.length_replicate]
  rfl

-- E1
theorem test_halted_has_no_step :
    [Transaction.cycle, .tickTimers, .setKey 1 true, .load [], .setPixel 0 0 true].all (fun tr =>
      match step (withTransaction tr { State.reset with halted := some .stackOverflow }) with
      | .fault r => r == .halted .stackOverflow
      | .next _ => false
      | .refused _ => false) = true := by decide

-- E2
theorem test_reset_leaves_halted : after (step (withTransaction .reset
      { State.reset with halted := some .stackOverflow, pc := 0x444, sp := 3 })) (fun t => t == State.reset) = true := by
  decide

-- R210, R211
theorem test_pixel_ports : ((State.reset.setPixel 66 33 true).pix.get 2 1 && getPixel (State.reset.setPixel 2 1 true) 66 33
      && (linearBuffer (State.reset.setPixel 2 1 true))[66]? == some true) = true := by decide

/-! ### The scheduler and the host -/

/-- A scheduler of at most three cycles a tick. -/
def scheduler (order : Config.TickOrder) (onError : Config.OnError) : Config.Scheduler :=
  ⟨3, by decide, order, 2, true, onError⟩

-- P3's schedule: a frame that stops after its draw issues the tick
theorem test_frame_stops_on_draw :
    after (runFrame (scheduler .afterCycles .halt) [.cycle, .cycle, .cycle] (atWord 0xD011))
      (fun t => t.pc == 0x202 && t.drew && !t.vblank) = true := by decide

-- R291: CYCLES_PER_TICK is an upper bound; here a frame issues fewer cycles, and one that is asked for more
theorem test_frame_cycles_are_bounded :
    after (runFrame (scheduler .beforeCycles .halt) [.cycle, .setKey 5 true] (atWord 0x1200))
      (fun t => t.pc == 0x200 && t.keyPressed 5) = true ∧
    after (runEvents false 1 [.cycle, .cycle] (atWord 0x6A01)) (fun t => t.pc == 0x202) = true := by decide

-- R252: the scheduler halts, or resets and loads
theorem test_frames_after_an_error :
    after (runFrames (scheduler .afterCycles .halt) [[.cycle], [.cycle]] State.reset)
      (fun t => t.halted == some (.unknownOpcode 0)) = true ∧
    after (runFrames (scheduler .afterCycles (.reset [0x12, 0x00])) [[.cycle], [.cycle]] State.reset)
      (fun t => t.halted == none && t.pc == 0x200 && t.byteAt 0x200 == 0x12) = true := by decide

/-! ### Witnesses: for each statement with hypotheses, a state and operands that meet them, each clause at a boundary -/

theorem witness_DecodeEncodeRoundTrip : Instr.wellFormed (.drw 0xF 0xF 0xF) = true := by decide

theorem witness_EncodeDecodeRoundTrip : decodeWord 0x8FFE = some (.shlReg 0xF 0xF) := by decide

theorem witness_FetchReadsBigEndian :
    memRead2 State.reset 4094 = .ok 0 ∧ memRead2 State.reset 4095 = .error (.raised (.addressOutOfRange 4096)) ∧
    memRead2 State.reset 4096 = .error (.raised (.addressOutOfRange 4096)) := by decide

/-- The last pc a fetch succeeds at, with no transaction decided on and with a cycle decided on. -/
theorem witness_StepRunsDecodedInstruction :
    let s := atWord 0x6A01 { State.reset with pc := 0xFFE }
    s.halted = none ∧ s.nextIsCycle ∧ State.nextIsCycle { s with schedule := [.cycle] } ∧ s.pc.toNat ≤ 0xFFE ∧
    decodeWord (wordOfBytes (s.byteAt s.pc.toNat) (s.byteAt (s.pc.toNat + 1))) = some (.ldImm 0xA 1) ∧
    Instr.wellFormed (.ldImm 0xA 1) = true :=
  ⟨rfl, Or.inl rfl, Or.inr rfl, by decide, by decide, rfl⟩

theorem witness_FetchErrorLatches :
    State.nextIsCycle { State.reset with pc := 0xFFF } ∧ State.reset.halted = none ∧
    (0xFFF : Word).toNat = 0xFFF ∧ (0x1000 : Word).toNat > 0xFFF :=
  ⟨Or.inl rfl, rfl, by decide, by decide⟩

theorem witness_UnknownWordLatches :
    State.reset.halted = none ∧ State.reset.nextIsCycle ∧ State.reset.pc.toNat ≤ 0xFFE ∧
    0x0000 = wordOfBytes (State.reset.byteAt State.reset.pc.toNat) (State.reset.byteAt (State.reset.pc.toNat + 1)) ∧
    decodeWord 0x0000 = none :=
  ⟨rfl, Or.inl rfl, by decide, by decide, by decide⟩

theorem witness_HaltedAcceptsResetOnly :
    let s := { State.reset with halted := some .stackOverflow }
    s.halted = some .stackOverflow ∧ s.schedule.head? ≠ some .reset ∧
    (withTransaction .reset s).schedule.head? = some .reset := by decide

/-- An instruction that raises each kind of error from a running machine. -/
theorem witness_ErrorsCommitNothing_and_ErrorCausesAreTheListed :
    raised (exec (.call 0x300) { State.reset with sp := 16 }) .stackOverflow 0x1FE = true ∧
    raised (exec .ret State.reset) .stackUnderflow 0x1FE = true ∧
    raised (exec (.ldB 0) { State.reset with i := 0xFFE }) (.addressOutOfRange 4096) 0x1FE = true := by decide

theorem witness_RefusalIsFontWriteOnly : exec (.ldB 0) { State.reset with i := 0x4F } = .refused (.fontWrite 0x4F) := rfl

theorem witness_JumpSetsPc : (absTarget 0xFFF).toNat > 0xFFE := by decide

theorem witness_CallPushesReturnAddress :
    ({ State.reset with sp := 15 } : State).sp.val < 16 ∧ ({ State.reset with sp := 16 } : State).sp.val = 16 := by decide

theorem witness_ReturnPopsStack :
    0 < ({ State.reset with sp := 1 } : State).sp.val ∧ State.reset.sp.val = 0 := by decide

theorem witness_CallNestingReturnsOrOverflows :
    (List.replicate 16 (0x300 : Addr12) ≠ [] ∧ State.reset.sp.val + (List.replicate 16 (0x300 : Addr12)).length ≤ 16) ∧
    ([(0x300 : Addr12)] ≠ [] ∧ ({ State.reset with sp := 16 } : State).sp.val + [(0x300 : Addr12)].length = 17) := by
  decide

theorem witness_SkipOnKey : (5 : Nibble).toNat = ((withRegs [(1, 0x15)]).reg 1).toNat % 16 := by decide

theorem witness_destination_other_than_VF : (0xE : Nibble) ≠ 0xF ∧ (0x0 : Nibble) ≠ 0xF := by decide

theorem witness_DecimalDigitsStored :
    (({ State.reset with i := 0xFFD } : State).i.toNat + 3 ≤ 4096 ∧ 0x04F < ({ State.reset with i := 0xFFD } : State).i.toNat) ∧
    (({ State.reset with i := 0x50 } : State).i.toNat + 3 ≤ 4096 ∧ 0x04F < ({ State.reset with i := 0x50 } : State).i.toNat) ∧
    (({ State.reset with fontWrite := .store } : State).i.toNat + 3 ≤ 4096 ∧
      ({ State.reset with fontWrite := .store } : State).fontWrite = .store) := by decide

theorem witness_RegistersStored_and_RegistersLoaded :
    ({ State.reset with i := 0xFF0 } : State).i.toNat + ((0xF : Nibble).toNat + 1) ≤ 4096 ∧
    0x04F < ({ State.reset with i := 0xFF0 } : State).i.toNat ∧
    ({ State.reset with i := 0xFFF } : State).i.toNat + ((0x0 : Nibble).toNat + 1) ≤ 4096 := by decide

theorem witness_AccessesThatStop :
    ({ State.reset with i := 0xFFE } : State).i.toNat + 3 > 4096 ∧
    ({ State.reset with i := 0xFF1 } : State).i.toNat + ((0xF : Nibble).toNat + 1) > 4096 ∧
    (State.reset.vblank = false ∧ 0 < (1 : Nibble).toNat ∧
      ({ State.reset with i := 0x1000 } : State).i.toNat + (1 : Nibble).toNat > 4096) ∧
    (({ State.reset with i := 0x4F } : State).i.toNat ≤ 0x04F ∧ State.reset.fontWrite = .refuse) := by decide

theorem witness_DrawOrRollBack :
    (State.reset.vblank = false ∧ (0 : Nibble).toNat = 0) ∧
    ({ State.reset with i := 0xFF1 } : State).i.toNat + (0xF : Nibble).toNat ≤ 4096 ∧
    ({ State.reset with vblank := true } : State).vblank = true := by decide

theorem witness_SpriteClosedForm_and_DrawTwiceRestores : (List.replicate 32 (0xFF : Byte)).length ≤ 32 := by decide

theorem witness_AtMostOneDrawBetweenTicks :
    noTickWithin 1000 State.reset ∧ noTickWithin 2 { State.reset with schedule := [.cycle, .cycle, .tickTimers] } := by
  constructor
  · intro tr h
    exact absurd h (by simp [State.reset, State.fresh])
  · intro tr h
    simp only [List.take_succ_cons, List.take_zero, List.mem_cons, List.not_mem_nil, or_false, or_self] at h
    subst h
    decide

theorem witness_LinearBufferRowMajor : 63 < 64 ∧ 31 < 32 := by decide

theorem witness_KeyWaitTable :
    (State.reset.wait = .running ∧ lowestPressed State.reset = none) ∧
    ((State.reset.setKey 0xF true).keyPressed 0xF = true ∧ lowestPressed (State.reset.setKey 0xF true) = some 0xF) ∧
    ({ State.reset with wait := .awaitingKeyRelease 2 } : State).wait = .awaitingKeyRelease 2 := by decide

/-- The start of program P4 of spec/95_test_vectors.md, with key 0xF pressed and released. -/
theorem witness_KeyWaitCompletes :
    let s := { atWord 0xF00A with schedule := [.cycle, .setKey 0xF true, .cycle, .setKey 0xF false, .cycle] }
    s.halted = none ∧ s.wait = .running ∧ lowestPressed s = none ∧ s.pc.toNat ≤ 0xFFE ∧
    decodeWord (wordOfBytes (s.byteAt s.pc.toNat) (s.byteAt (s.pc.toNat + 1))) = some (.ldVxK 0) := by decide

theorem witness_TickCountsDown :
    (withTransaction .tickTimers).halted = none ∧ (withTransaction .tickTimers).schedule = [.tickTimers] := by decide

theorem witness_HostPortsChangeOnePlace :
    (withTransaction (.setKey 0xF true)).schedule = .setKey 0xF true :: [] ∧
    (withTransaction (.setPixel 64 32 true)).schedule = .setPixel 64 32 true :: [] := by decide

theorem witness_LoadCopiesRom :
    (withTransaction (.load (List.replicate 3584 0))).halted = none ∧ (List.replicate 3584 (0 : Byte)).length ≤ 3584 ∧
    (List.replicate 3585 (0 : Byte)).length > 3584 := by
  rw [List.length_replicate, List.length_replicate]
  exact ⟨rfl, by decide, by decide⟩

theorem witness_ResetHoldsTable :
    (withTransaction .reset { State.reset with halted := some .stackOverflow }).schedule = .reset :: [] := by decide

theorem witness_StepKeepsInvariant : (atWord 0x6A01).Inv ∧ ∃ t, step (atWord 0x6A01) = .next t :=
  ⟨⟨by decide, by decide, fun _ _ h => absurd h (Nat.not_lt_zero _)⟩, _, rfl⟩

theorem witness_FontStaysIntact :
    State.reset.fontWrite = .refuse ∧ State.reset.FontIntact ∧ ∃ t, step State.reset = .next t :=
  ⟨rfl, fun a h => by simp [State.byteAt, Memory.read, State.reset, State.fresh, Memory.find, Memory.unlisted, h], _, rfl⟩

theorem witness_FrameOfRegisters :
    (∃ t, exec (.addReg 1 2) State.reset = .next t) ∧ writesReg (.addReg 1 2) 3 = false ∧
    writesReg (.ldRegs 0xE) 0xF = false := ⟨⟨_, rfl⟩, by decide, by decide⟩

theorem witness_FrameOfMemory :
    let s := { State.reset with i := 0xFFE }
    (∃ t, exec (.stRegs 1) s = .next t) ∧ 0xFFD < effAddr s 0 ∧ effAddr s 0 + storedBytes (.stRegs 1) ≤ 0x1000 :=
  ⟨⟨_, rfl⟩, by decide, by decide⟩

theorem witness_FrameOfOtherParts_and_PcAfterInstruction :
    (∃ t, exec .cls State.reset = .next t ∧ t.halted = none) ∧ Part.vblank ∉ writesPart .cls ∧
    Part.halted ∉ writesPart .cls := ⟨⟨_, rfl, rfl⟩, by decide, by decide⟩

theorem witness_WaitAndSoundTimerUnread : (∀ x, Instr.cls ≠ .ldVxK x) ∧ (∀ x, Instr.cls ≠ .ldStVx x) :=
  ⟨fun _ h => Instr.noConfusion h, fun _ h => Instr.noConfusion h⟩

-- C3: a jump to itself
theorem witness_SelfJumpStays :
    (atWord 0x1200).running ∧ (atWord 0x1200).nextIsCycle ∧ (atWord 0x1200).atSelfJump 0x200 :=
  ⟨rfl, Or.inl rfl, ⟨by decide, by decide⟩⟩

/-- A fair host: a tick, a press of key 0, a cycle, its release, a cycle, and so on for ever. -/
def fairHost (m : Nat) : Option Transaction :=
  [.tickTimers, .setKey 0 true, .cycle, .setKey 0 false, .cycle][m % 5]?

theorem keyLevel_fairHost (k : Nibble) (n : Nat) :
    keyLevel fairHost (fun _ => false) k n = decide (k = 0 ∧ (n % 5 = 2 ∨ n % 5 = 3)) := by
  induction n with
  | zero => simp [keyLevel]
  | succ n ih =>
    have h : n % 5 = 0 ∨ n % 5 = 1 ∨ n % 5 = 2 ∨ n % 5 = 3 ∨ n % 5 = 4 := by omega
    have e : (n + 1) % 5 = (n % 5 + 1) % 5 := by omega
    rcases h with h | h | h | h | h <;> rw [e] <;> simp [keyLevel, fairHost, h, ih] <;> grind

theorem fairHost_at (n r : Nat) (hr : r < 5) : ∃ m, n ≤ m ∧ m % 5 = r := ⟨5 * n + r, by omega, by omega⟩

theorem witness_HostDutiesEndWaits :
    Fair fairHost State.reset.keyPressed ∧ LeavesProgram fairHost ∧ (atWord 0xD011).At (.drw 0 1 1) ∧
    (atWord 0xF00A).At (.ldVxK 0) := by
  have e : State.reset.keyPressed = fun _ => false := by funext k; revert k; decide
  refine ⟨⟨fun n => ?_, fun n => ?_, ⟨fun n => ?_, fun n k => ?_⟩⟩, fun m => ?_, ⟨by decide, by decide, by decide⟩,
    ⟨by decide, by decide, by decide⟩⟩
  · obtain ⟨m, hm, hr⟩ := fairHost_at n 0 (by omega)
    exact ⟨m, hm, by simp [fairHost, hr]⟩
  · obtain ⟨m, hm, hr⟩ := fairHost_at n 2 (by omega)
    exact ⟨m, hm, by simp [fairHost, hr]⟩
  · obtain ⟨m, hm, hr⟩ := fairHost_at n 2 (by omega)
    exact ⟨m, 0, hm, by simp [fairHost, hr], by rw [e, keyLevel_fairHost]; simp [hr]⟩
  · obtain ⟨m, hm, hr⟩ := fairHost_at n 4 (by omega)
    exact ⟨m, hm, by simp [fairHost, hr], by rw [e, keyLevel_fairHost]; simp [hr]⟩
  · have h : m % 5 = 0 ∨ m % 5 = 1 ∨ m % 5 = 2 ∨ m % 5 = 3 ∨ m % 5 = 4 := by omega
    rcases h with h | h | h | h | h <;> simp [fairHost, h]

theorem witness_WaitsGoOnWithoutDuties :
    LeavesProgram (fun _ => some .cycle) ∧ LeavesProgram (fun _ => some .tickTimers) ∧
    ({ atWord 0xD011 with vblank := true } : State).At (.drw 0 1 1) ∧ (atWord 0xF00A).At (.ldVxK 0) ∧
    lowestPressed (atWord 0xF00A) = none :=
  ⟨fun _ => by simp, fun _ => by simp, ⟨by decide, by decide, by decide⟩, ⟨by decide, by decide, by decide⟩, by decide⟩

end Sys2Proof.Tests
end

section
/-! PROOFS. What every instruction leaves unchanged, where it can leave pc, and that every step keeps the invariant of
spec/10_state.md R28 and R60; the state after reset (R46). -/

namespace Sys2Proof.Machine

/-! ### Frames -/

/-- A part of the state is the same in `t` as in `s`. -/
def Part.Same (s t : State) : Part → Prop
  | .i => t.i = s.i
  | .stack => t.stack = s.stack ∧ t.sp = s.sp
  | .dt => t.dt = s.dt
  | .st => t.st = s.st
  | .wait => t.wait = s.wait
  | .vblank => t.vblank = s.vblank
  | .pix => t.pix = s.pix
  | .draws => t.draws = s.draws
  | .drew => t.drew = s.drew
  | .halted => t.halted = s.halted

/-- From `s` to `t` only pc changes and what the tables `writesReg`, `storedBytes` and `writesPart` give to the
instruction `i`; an instruction that stores no byte leaves the cells of memory as they are. -/
structure InstrFrame (i : Instr) (s t : State) : Prop where
  reg : ∀ r, writesReg i r = false → t.reg r = s.reg r
  mem : storedBytes i = 0 → t.mem = s.mem
  part : ∀ p, p ∉ writesPart i → p.Same s t
  host : t.key = s.key ∧ t.font = s.font ∧ t.fontWrite = s.fontWrite ∧ t.schedule = s.schedule

variable {i : Instr} {s t : State}

/-- An instruction that writes no register and no memory needs its parts looked at only. -/
theorem InstrFrame.of_parts (hv : t.v = s.v) (hm : t.mem = s.mem) (hp : ∀ p, p ∉ writesPart i → p.Same s t)
    (hh : t.key = s.key ∧ t.font = s.font ∧ t.fontWrite = s.fontWrite ∧ t.schedule = s.schedule) : InstrFrame i s t :=
  ⟨fun r _ => State.reg_congr hv r, fun _ => hm, hp, hh⟩

theorem InstrFrame.of_pc (w : Word) : InstrFrame i s { s with pc := w } :=
  .of_parts rfl rfl (fun p _ => by cases p <;> simp [Part.Same]) ⟨rfl, rfl, rfl, rfl⟩

theorem InstrFrame.of_skipIf (c : Bool) : InstrFrame i s (skipIf c s) := skipIf_eq s c ▸ .of_pc _

/-- An error rolls pc back and sets the latch. -/
theorem InstrFrame.of_error (h : Part.halted ∈ writesPart i) (e : Error) :
    InstrFrame i s { s with pc := s.pc - 2, halted := some e } :=
  .of_parts rfl rfl (fun p hp => by cases p <;> simp_all [Part.Same]) ⟨rfl, rfl, rfl, rfl⟩

theorem InstrFrame.of_setReg {x : Nibble} (hx : writesReg i x = true) (b : Byte) : InstrFrame i s (s.setReg x b) where
  reg r hr := State.reg_setReg_ne s b (by rintro rfl; simp [hx] at hr)
  mem _ := rfl
  part p _ := by cases p <;> simp [Part.Same]
  host := ⟨rfl, rfl, rfl, rfl⟩

theorem InstrFrame.of_setResultFlag {x : Nibble} (hx : writesReg i x = true) (hf : writesReg i vfNum = true)
    (b f : Byte) : InstrFrame i s (s.setResultFlag x b f) where
  reg r hr := by
    have h1 : r ≠ vfNum := by rintro rfl; simp [hf] at hr
    have h2 : r ≠ x := by rintro rfl; simp [hx] at hr
    simp [State.reg_setResultFlag, h1, h2]
  mem _ := rfl
  part p _ := by cases p <;> simp [Part.Same]
  host := ⟨rfl, rfl, rfl, rfl⟩

/-- Loading V0..Vx keeps the registers above Vx. -/
theorem reg_setRegsFrom_above (s : State) {x r : Nibble} (hr : ¬ r ≤ x) {bs : List Byte}
    (hl : bs.length = x.toNat + 1) : (s.setRegsFrom 0 bs).reg r = s.reg r := by
  have hx : x.toNat < r.toNat := by simpa [BitVec.le_def] using hr
  have h16 : r.toNat < 16 := r.isLt
  have h := State.reg_setRegsFrom bs s 0 r.toNat (by omega) h16
  rw [List.getElem?_eq_none (by omega)] at h
  simpa using h

theorem execLdRegs_frame {x : Nibble} (h : execLdRegs x s = .next t) : InstrFrame (.ldRegs x) s t := by
  rcases execLdRegs_cases h with ⟨-, rfl⟩ | ⟨e, rfl⟩
  · refine ⟨fun r hr => ?_, fun _ => rfl, fun p hp => ?_, rfl, rfl, rfl, rfl⟩
    · exact reg_setRegsFrom_above s (by simpa [writesReg] using hr) (s.length_bytesFrom _ _)
    · cases p <;> simp_all [Part.Same, writesPart]
  · exact .of_error (by simp [writesPart]) e

theorem execDrw_frame {x y n : Nibble} (h : execDrw x y n s = .next t) : InstrFrame (.drw x y n) s t := by
  rcases execDrw_cases h with ⟨-, rfl⟩ | ⟨-, -, rfl⟩ | ⟨-, -, rfl⟩
  · exact .of_pc _
  · refine ⟨fun r hr => ?_, fun _ => rfl, fun p hp => ?_, rfl, rfl, rfl, rfl⟩
    · exact State.reg_setReg_ne s _ (by simpa [writesReg] using hr)
    · cases p <;> simp_all [Part.Same, writesPart]
  · exact .of_error (by simp [writesPart]) _

theorem execLdVxK_frame {x : Nibble} (h : execLdVxK x s = .next t) : InstrFrame (.ldVxK x) s t := by
  rcases execLdVxK_cases h with ⟨-, rfl⟩ | ⟨k, -, ⟨-, rfl⟩ | ⟨-, rfl⟩⟩
  · rw [awaitPress_eq]
    exact .of_parts rfl rfl (fun p hp => by cases p <;> simp_all [Part.Same, writesPart]) ⟨rfl, rfl, rfl, rfl⟩
  · exact .of_pc _
  · refine ⟨fun r hr => ?_, fun _ => rfl, fun p hp => ?_, rfl, rfl, rfl, rfl⟩
    · exact State.reg_setReg_ne s _ (by simpa [writesReg] using hr)
    · cases p <;> simp_all [Part.Same, writesPart]

theorem execRnd_frame {x : Nibble} {kk : Byte} (h : execRnd x kk s = .next t) : InstrFrame (.rnd x kk) s t := by
  cases h
  refine ⟨fun r hr => ?_, fun _ => rfl, fun p hp => ?_, rfl, rfl, rfl, rfl⟩
  · exact State.reg_setReg_ne s _ (by simpa [writesReg] using hr)
  · cases p <;> simp_all [Part.Same, writesPart]

/-- Every instruction stays within its frame (spec/40_cycle.md R120). -/
theorem exec_frame (h : exec i s = .next t) : InstrFrame i s t := by
  cases i with
  | jp _ | jpV0 _ => cases h; exact .of_pc _
  | seImm _ _ | sneImm _ _ | seReg _ _ | sneReg _ _ | skp _ | sknp _ => cases h; exact .of_skipIf _
  | ldImm _ _ | addImm _ _ | ldReg _ _ | ldVxDt _ => cases h; exact .of_setReg (by simp [writesReg]) _
  | orReg _ _ | andReg _ _ | xorReg _ _ | addReg _ _ | subReg _ _ | shrReg _ _ | subnReg _ _ | shlReg _ _ =>
    cases h
    exact .of_setResultFlag (by simp [writesReg]) (by simp [writesReg]) _ _
  | cls | ldI _ | addI _ | ldF _ | ldDtVx _ | ldStVx _ =>
    cases h
    exact .of_parts rfl rfl (fun p hp => by cases p <;> simp_all [Part.Same, writesPart]) ⟨rfl, rfl, rfl, rfl⟩
  | ret =>
    rcases execRet_cases h with ⟨-, rfl⟩ | ⟨-, rfl⟩
    · exact .of_parts rfl rfl (fun p hp => by cases p <;> simp_all [Part.Same, writesPart]) ⟨rfl, rfl, rfl, rfl⟩
    · exact .of_error (by simp [writesPart]) _
  | call _ =>
    rcases execCall_cases h with ⟨-, rfl⟩ | ⟨-, rfl⟩
    · exact .of_parts rfl rfl (fun p hp => by cases p <;> simp_all [Part.Same, writesPart]) ⟨rfl, rfl, rfl, rfl⟩
    · exact .of_error (by simp [writesPart]) _
  | rnd _ _ => exact execRnd_frame h
  | drw _ _ _ => exact execDrw_frame h
  | ldVxK _ => exact execLdVxK_frame h
  | ldB _ =>
    rcases execLdB_cases h with ⟨-, -, rfl⟩ | ⟨e, rfl⟩
    · exact ⟨fun _ _ => rfl, by simp [storedBytes], fun p hp => by cases p <;> simp_all [Part.Same, writesPart],
        rfl, rfl, rfl, rfl⟩
    · exact .of_error (by simp [writesPart]) e
  | stRegs _ =>
    rcases execStRegs_cases h with ⟨-, -, rfl⟩ | ⟨e, rfl⟩
    · exact ⟨fun _ _ => rfl, by simp [storedBytes], fun p hp => by cases p <;> simp_all [Part.Same, writesPart],
        rfl, rfl, rfl, rfl⟩
    · exact .of_error (by simp [writesPart]) e
  | ldRegs _ => exact execLdRegs_frame h

/-! ### Where an instruction leaves pc -/

/-- The values an instruction that starts in `s` can leave in pc (spec/10_state.md R28). -/
inductive State.NextPc (s : State) : Word → Prop where
  | stay : NextPc s s.pc
  | skip : NextPc s (s.pc + 2)
  | back : NextPc s (s.pc - 2)
  | jump (nnn : Addr12) : NextPc s (absTarget nnn)
  | offset (nnn : Addr12) : NextPc s (offsetTarget s nnn)
  | pop (h : 0 < s.sp.val) : NextPc s (s.stack[s.sp.val - 1]'(by omega))

theorem skipIf_nextPc (c : Bool) : s.NextPc (skipIf c s).pc := by
  cases c
  · exact .stay
  · exact .skip

theorem exec_nextPc (h : exec i s = .next t) : s.NextPc t.pc := by
  cases i with
  | jp nnn => cases h; exact .jump nnn
  | jpV0 nnn => cases h; exact .offset nnn
  | seImm _ _ | sneImm _ _ | seReg _ _ | sneReg _ _ | skp _ | sknp _ => cases h; exact skipIf_nextPc _
  | cls | ldImm _ _ | addImm _ _ | ldReg _ _ | orReg _ _ | andReg _ _ | xorReg _ _ | addReg _ _ | subReg _ _
  | shrReg _ _ | subnReg _ _ | shlReg _ _ | ldI _ | rnd _ _ | ldVxDt _ | ldDtVx _ | ldStVx _ | addI _ | ldF _ =>
    cases h
    exact .stay
  | ret =>
    rcases execRet_cases h with ⟨hp, rfl⟩ | ⟨-, rfl⟩
    · exact .pop hp
    · exact .back
  | call nnn =>
    rcases execCall_cases h with ⟨-, rfl⟩ | ⟨-, rfl⟩
    · exact .jump nnn
    · exact .back
  | drw _ _ _ =>
    rcases execDrw_cases h with ⟨-, rfl⟩ | ⟨-, -, rfl⟩ | ⟨-, -, rfl⟩
    · exact .back
    · exact .stay
    · exact .back
  | ldVxK _ =>
    rcases execLdVxK_cases h with ⟨-, rfl⟩ | ⟨k, -, ⟨-, rfl⟩ | ⟨-, rfl⟩⟩
    · exact .back
    · exact .back
    · exact .stay
  | ldB _ =>
    rcases execLdB_cases h with ⟨-, -, rfl⟩ | ⟨_, rfl⟩
    · exact .stay
    · exact .back
  | stRegs _ =>
    rcases execStRegs_cases h with ⟨-, -, rfl⟩ | ⟨_, rfl⟩
    · exact .stay
    · exact .back
  | ldRegs _ =>
    rcases execLdRegs_cases h with ⟨-, rfl⟩ | ⟨_, rfl⟩
    · exact .stay
    · exact .back

/-- After a fetch pc is in 2..0x1000; the largest value an instruction then leaves is 0xFFF + 0xFF, by Bnnn. -/
theorem State.NextPc.le {w : Word} (h : s.NextPc w) (hs : s.Inv) (hlo : 2 ≤ s.pc.toNat) (hhi : s.pc.toNat ≤ 0x1000) :
    w.toNat ≤ 0x10FE := by
  cases h with
  | stay => omega
  | skip => bv_omega
  | back => bv_omega
  | jump nnn => simp only [absTarget]; bv_omega
  | offset nnn => simp only [offsetTarget]; bv_omega
  | pop h =>
    have := hs.stack_le (s.sp.val - 1) (by omega) (by omega)
    omega

/-! ### The invariant -/

/-- The invariant speaks of FONT, memory, pc and the valid stack entries only. -/
theorem State.Inv.congr (hs : s.Inv) (hf : t.font = s.font) (hm : t.mem = s.mem) (hpc : t.pc = s.pc)
    (hst : t.stack = s.stack) (hsp : t.sp = s.sp) : t.Inv :=
  ⟨by simpa [hf, hm] using hs.mem_wf, by simpa [hpc] using hs.pc_le, by simpa [hst, hsp] using hs.stack_le⟩

/-- Fx33 and Fx55 store at backed addresses only, so memory stays canonical (spec/20_memory.md R60). -/
theorem exec_keeps_mem_wf (h : exec i s = .next t) (hs : Memory.wf s.font s.mem = true) :
    Memory.wf t.font t.mem = true := by
  have hframe := exec_frame h
  obtain ⟨-, hfont, -, -⟩ := hframe.host
  by_cases h0 : storedBytes i = 0
  · rw [hfont, hframe.mem h0]
    exact hs
  · cases i with
    | ldB x =>
      rcases execLdB_cases h with ⟨hlen, -, rfl⟩ | ⟨e, rfl⟩
      · exact Memory.wf_writeList _ hs hlen
      · exact hs
    | stRegs x =>
      rcases execStRegs_cases h with ⟨hlen, -, rfl⟩ | ⟨e, rfl⟩
      · exact Memory.wf_writeList _ hs (by rw [State.length_regsFrom]; exact hlen)
      · exact hs
    | _ => exact absurd rfl h0

/-- 2nnn pushes the advanced pc, 00EE only gives up an entry, no other instruction touches the stack
(spec/10_state.md R33). -/
theorem exec_keeps_stack_le (h : exec i s = .next t) (hs : s.Inv) (hpc : s.pc.toNat ≤ 0x1000) :
    ∀ k (hk : k < 16), k < t.sp.val → (t.stack[k]'hk).toNat ≤ 0x1000 := by
  by_cases hp : Part.stack ∈ writesPart i
  · cases i with
    | ret =>
      rcases execRet_cases h with ⟨-, rfl⟩ | ⟨-, rfl⟩
      · intro k hk hlt
        exact hs.stack_le k hk (by simp at hlt; omega)
      · exact hs.stack_le
    | call nnn =>
      rcases execCall_cases h with ⟨-, rfl⟩ | ⟨-, rfl⟩
      · intro k hk hlt
        simp only [Vector.getElem_set]
        split
        · exact hpc
        · exact hs.stack_le k hk (by simp at hlt; omega)
      · exact hs.stack_le
    | _ => simp [writesPart] at hp
  · obtain ⟨hst, hsp⟩ : t.stack = s.stack ∧ t.sp = s.sp := (exec_frame h).part _ hp
    simpa [hst, hsp] using hs.stack_le

/-- An instruction run on a pc that a fetch has advanced keeps the invariant. -/
theorem exec_keeps_inv (h : exec i s = .next t) (hs : s.Inv) (hlo : 2 ≤ s.pc.toNat) (hhi : s.pc.toNat ≤ 0x1000) :
    t.Inv :=
  ⟨exec_keeps_mem_wf h hs.mem_wf, (exec_nextPc h).le hs hlo hhi, exec_keeps_stack_le h hs hhi⟩

theorem cycle_keeps_inv (h : cycle s = .next t) (hs : s.Inv) : t.Inv := by
  rcases cycle_cases h with ⟨e, rfl⟩ | ⟨hpc, i, -, hexec⟩
  · exact hs.congr rfl rfl rfl rfl rfl
  · have hadv : (s.pc + 2).toNat = s.pc.toNat + 2 := by bv_omega
    have hs' : State.Inv { s with pc := s.pc + 2, drew := false } :=
      ⟨hs.mem_wf, by simp only [hadv]; omega, hs.stack_le⟩
    exact exec_keeps_inv hexec hs' (by simp only [hadv]; omega) (by simp only [hadv]; omega)

/-- A ROM that fits ends inside memory, and one that does not writes nothing (spec/20_memory.md R76). -/
theorem loadRom_keeps_inv {rom : List Byte} (h : loadRom s rom = .next t) (hs : s.Inv) : t.Inv := by
  rcases loadRom_cases s rom with ⟨hlen, hr⟩ | ⟨-, hr⟩ <;> rw [hr] at h <;> cases h
  · exact ⟨Memory.wf_writeList rom hs.mem_wf (by omega), hs.pc_le, hs.stack_le⟩
  · exact hs.congr rfl rfl rfl rfl rfl

variable (font : Config.Font) (fw : Config.FontWrite) (draws : Nat) (schedule : List Transaction)

theorem State.fresh_inv : (State.fresh font fw draws schedule).Inv where
  mem_wf := Memory.wf_nil font
  pc_le := by simp [State.fresh]
  stack_le _ _ hlt := absurd hlt (Nat.not_lt_zero _)

variable {tr : Transaction}

theorem act_keeps_inv (h : act tr s = .next t) (hs : s.Inv) : t.Inv := by
  cases tr with
  | cycle => exact cycle_keeps_inv h hs
  | load rom => exact loadRom_keeps_inv h hs
  | reset => cases h; exact State.fresh_inv _ _ _ _
  | tickTimers | setKey _ _ | setPixel _ _ _ => cases h; exact hs.congr rfl rfl rfl rfl rfl

theorem perform_keeps_inv (h : perform tr s = .next t) (hs : s.Inv) : t.Inv := by
  rcases perform_cases h with ⟨-, rfl⟩ | ⟨-, hact⟩
  · exact State.fresh_inv _ _ _ _
  · exact act_keeps_inv hact hs

/-! ### The state after reset -/

theorem State.byteAt_fresh (a : Nat) : (State.fresh font fw draws schedule).byteAt a = Memory.unlisted font a := rfl

theorem State.fresh_fontIntact : (State.fresh font fw draws schedule).FontIntact := fun a h => by
  rw [State.byteAt_fresh, Memory.unlisted, dif_pos h]
  rfl

theorem State.fresh_isFresh : (State.fresh font fw draws schedule).IsFresh where
  pc_eq := rfl
  regs_zero r := by simp [State.reg, State.fresh]
  i_zero := rfl
  sp_zero := rfl
  stack_zero k h := by simp [State.fresh]
  timers_zero := ⟨rfl, rfl⟩
  wait_running := rfl
  lock_open := rfl
  font_bytes := State.fresh_fontIntact font fw draws schedule
  other_bytes a h := by rw [State.byteAt_fresh, Memory.unlisted, dif_neg (by omega)]
  pixels_off := Grid.get_blank
  keys_released k := by simp [State.keyPressed, State.fresh]
  not_halted := rfl

/-- A reset is performed whether or not an error is latched (spec/60_exceptions.md R254). -/
theorem perform_reset (s : State) : perform .reset s = .next s.rebuilt := by
  unfold perform
  split <;> rfl

end Sys2Proof.Machine

open Sys2Proof.Machine

/-- Settles O50: a step performs one transaction, and each transaction keeps the invariant. -/
theorem stepKeepsInvariant : Obligations.StepKeepsInvariant := by
  intro s t hs h
  rw [step_eq_perform] at h
  exact perform_keeps_inv h (hs.congr rfl rfl rfl rfl rfl)

/-- Settles O53: the register part of the frame of an instruction. -/
theorem frameOfRegisters : Obligations.FrameOfRegisters :=
  fun _ _ _ _ h => (exec_frame h).reg _

/-- Settles O55: the other parts of the frame of an instruction. -/
theorem frameOfOtherParts : Obligations.FrameOfOtherParts := by
  intro i s t h
  have hpart := (exec_frame h).part
  exact ⟨hpart .i, hpart .stack, hpart .dt, hpart .st, hpart .wait, hpart .vblank, hpart .pix, hpart .draws,
    hpart .drew, hpart .halted, (exec_frame h).host⟩

/-- Settles O49: both State.reset and the state a reset transaction leads to are built by `State.fresh`. -/
theorem resetHoldsTable : Obligations.ResetHoldsTable := by
  refine ⟨State.fresh_isFresh _ _ _ _, rfl, fun s rest hsched => ?_⟩
  have hstep : step s = .next (State.fresh s.font s.fontWrite s.draws rest) := by
    simp only [step, hsched, perform_reset]
    rfl
  exact ⟨_, hstep, State.fresh_isFresh _ _ _ _, rfl, rfl, rfl, rfl⟩

/-- Settles O51: State.reset is a fresh state. -/
theorem resetMeetsInvariants : Obligations.ResetMeetsInvariants :=
  ⟨State.fresh_inv _ _ _ _, State.fresh_fontIntact _ _ _ _⟩
end

section
/-! PROOFS. What is read from memory and written to it (spec/20_memory.md): the two bytes of an instruction, the bytes
an instruction and a ROM load leave as they were, and the font region under FONT_WRITE = Refuse. -/

namespace Sys2Proof

/-! ### An instruction from its two bytes -/

/-- Big-endian: the high byte and the low byte of a word, put together again (R65). -/
@[simp] theorem wordOfBytes_extractLsb' (w : Word) : wordOfBytes (w.extractLsb' 8 8) (w.extractLsb' 0 8) = w := by
  apply BitVec.eq_of_toNat_eq
  have hw : w.toNat < 65536 := w.isLt
  rw [toNat_wordOfBytes, BitVec.extractLsb'_toNat, BitVec.extractLsb'_toNat, Nat.shiftRight_eq_div_pow]
  omega

/-- Decoding inverts encoding: the fields of each layout read back what the encoder put there
(spec/30_encoding.md R93). -/
theorem decodeWord_encode (i : Instr) : decodeWord (encode i) = some i := by
  cases i with
  | cls | ret => rfl
  -- the layout of an address
  | jp nnn | call nnn | ldI nnn | jpV0 nnn => simp [decodeWord, encode]
  -- the layout of a register and a byte, the byte an operand or the rest of the opcode
  | seImm x kk | sneImm x kk | ldImm x kk | addImm x kk | rnd x kk | skp x | sknp x | ldVxDt x | ldVxK x | ldDtVx x
  | ldStVx x | addI x | ldF x | ldB x | stRegs x | ldRegs x => simp [decodeWord, encode]
  -- the layout of two registers and a nibble, the nibble an operand or the rest of the opcode
  | seReg x y | sneReg x y | ldReg x y | orReg x y | andReg x y | xorReg x y | addReg x y | subReg x y | shrReg x y
  | subnReg x y | shlReg x y | drw x y n => simp [decodeWord, encode]

namespace Machine

variable {i : Instr} {s t : State} {tr : Transaction}

/-! ### What an instruction does to memory -/

/-- Everything an instruction can do to memory: nothing, or, past the font policy (R69), its `storedBytes` bytes stored
from I up (R67). -/
theorem exec_mem_cases (h : exec i s = .next t) :
    t.mem = s.mem ∨
    ((0x04F < s.i.toNat ∨ s.fontWrite = .store) ∧
      ∃ bs : List Byte, bs.length = storedBytes i ∧ t.mem = Memory.writeList s.font s.mem s.i.toNat bs) := by
  by_cases h0 : storedBytes i = 0
  · exact Or.inl ((exec_frame h).mem h0)
  · cases i with
    | ldB x =>
      rcases execLdB_cases h with ⟨-, hpolicy, rfl⟩ | ⟨e, rfl⟩
      · exact Or.inr ⟨hpolicy, _, rfl, rfl⟩
      · exact Or.inl rfl
    | stRegs x =>
      rcases execStRegs_cases h with ⟨-, hpolicy, rfl⟩ | ⟨e, rfl⟩
      · exact Or.inr ⟨hpolicy, _, s.length_regsFrom _ _, rfl⟩
      · exact Or.inl rfl
    | _ => exact absurd rfl h0

/-- A byte outside a stored range keeps its value. -/
theorem Memory.read_writeList_outside (font : Config.Font) (m : Memory) {a c : Nat} {vs : List Byte}
    (hc : c < a ∨ a + vs.length ≤ c) : Memory.read font (Memory.writeList font m a vs) c = Memory.read font m c := by
  rw [Memory.read_writeList]
  split
  · rw [List.getElem?_eq_none (by omega), Option.getD_none]
  · rfl

/-- An instruction keeps every byte outside the range it stores. -/
theorem exec_byteAt_outside (h : exec i s = .next t) {a : Nat}
    (ha : a < s.i.toNat ∨ s.i.toNat + storedBytes i ≤ a) : t.byteAt a = s.byteAt a := by
  obtain ⟨-, hfont, -, -⟩ := (exec_frame h).host
  rcases exec_mem_cases h with hmem | ⟨-, bs, hlen, hmem⟩
  · exact State.byteAt_congr hmem hfont a
  · rw [State.byteAt, hfont, hmem]
    exact Memory.read_writeList_outside s.font s.mem (hlen ▸ ha)

/-- Under FONT_WRITE = Refuse an instruction that answers a next state has stored above the font (R69). -/
theorem exec_byteAt_font (h : exec i s = .next t) (hw : s.fontWrite = .refuse) {a : Nat} (ha : a < 80) :
    t.byteAt a = s.byteAt a := by
  obtain ⟨-, hfont, -, -⟩ := (exec_frame h).host
  rcases exec_mem_cases h with hmem | ⟨hpolicy, -⟩
  · exact State.byteAt_congr hmem hfont a
  · have hi : 0x04F < s.i.toNat := hpolicy.resolve_right (by simp [hw])
    exact exec_byteAt_outside h (Or.inl (by omega))

/-! ### The font region under FONT_WRITE = Refuse -/

/-- The machine refuses writes to the font, its parameter FONT is `font`, and its font region holds it (R68, R75). -/
structure State.GuardsFont (s : State) (font : Config.Font) : Prop where
  intact : s.FontIntact
  refuses : s.fontWrite = .refuse
  font_eq : s.font = font

variable {font : Config.Font}

/-- The parameters and the bytes of the font region are all that matters. -/
theorem State.GuardsFont.congr (hs : s.GuardsFont font) (hf : t.font = s.font) (hw : t.fontWrite = s.fontWrite)
    (hb : ∀ a, a < 80 → t.byteAt a = s.byteAt a) : t.GuardsFont font where
  intact a ha := by simpa only [hb a ha, hf] using hs.intact a ha
  refuses := hw.trans hs.refuses
  font_eq := hf.trans hs.font_eq

theorem exec_keeps_guardsFont (h : exec i s = .next t) (hs : s.GuardsFont font) : t.GuardsFont font := by
  obtain ⟨-, hfont, hfontWrite, -⟩ := (exec_frame h).host
  exact hs.congr hfont hfontWrite fun _ ha => exec_byteAt_font h hs.refuses ha

theorem cycle_keeps_guardsFont (h : cycle s = .next t) (hs : s.GuardsFont font) : t.GuardsFont font := by
  rcases cycle_cases h with ⟨e, rfl⟩ | ⟨-, i, -, hexec⟩
  · exact hs.congr rfl rfl fun _ _ => rfl
  · exact exec_keeps_guardsFont hexec (hs.congr rfl rfl fun _ _ => rfl)

/-- A ROM is copied to 0x200 and above, past the font region (R76). -/
theorem loadRom_keeps_guardsFont {rom : List Byte} (h : loadRom s rom = .next t) (hs : s.GuardsFont font) :
    t.GuardsFont font := by
  rcases loadRom_cases s rom with ⟨-, hr⟩ | ⟨-, hr⟩ <;> rw [hr] at h <;> cases h
  · exact hs.congr rfl rfl fun a ha => Memory.read_writeList_outside s.font s.mem (Or.inl (by omega))
  · exact hs.congr rfl rfl fun _ _ => rfl

/-- A reset writes FONT afresh. -/
theorem rebuilt_keeps_guardsFont (hs : s.GuardsFont font) : s.rebuilt.GuardsFont font :=
  ⟨State.fresh_fontIntact _ _ _ _, hs.refuses, hs.font_eq⟩

theorem act_keeps_guardsFont (h : act tr s = .next t) (hs : s.GuardsFont font) : t.GuardsFont font := by
  cases tr with
  | cycle => exact cycle_keeps_guardsFont h hs
  | load rom => exact loadRom_keeps_guardsFont h hs
  | reset => cases h; exact rebuilt_keeps_guardsFont hs
  | tickTimers | setKey _ _ | setPixel _ _ _ => cases h; exact hs.congr rfl rfl fun _ _ => rfl

theorem perform_keeps_guardsFont (h : perform tr s = .next t) (hs : s.GuardsFont font) : t.GuardsFont font := by
  rcases perform_cases h with ⟨-, rfl⟩ | ⟨-, hact⟩
  · exact rebuilt_keeps_guardsFont hs
  · exact act_keeps_guardsFont hact hs

/-! ### A ROM load -/

/-- A step of a running machine whose next transaction is a load. -/
theorem step_load {rom : List Byte} {rest : List Transaction} (hrun : s.halted = none)
    (hsched : s.schedule = .load rom :: rest) : step s = loadRom { s with schedule := rest } rom := by
  simp only [step, hsched, perform, hrun, act]

end Machine
end Sys2Proof

open Sys2Proof Sys2Proof.Machine

/-- Settles O52: a step performs one transaction, and each transaction keeps the guarded font. -/
theorem fontStaysIntact : Obligations.FontStaysIntact := by
  intro s t hw hs h
  rw [step_eq_perform] at h
  obtain ⟨hintact, hrefuses, hfont⟩ := perform_keeps_guardsFont h (font := s.font) ⟨hs, hw, rfl⟩
  exact ⟨hintact, hrefuses, hfont⟩

/-- Settles O5: the two bytes make up the word again, and the word decodes to the instruction. -/
theorem bytesDecodeToTheirInstruction : Obligations.BytesDecodeToTheirInstruction := by
  intro i rest
  simp [encodeBytes, decodeBytes, decodeWord_encode]

/-- Settles O54: the effective address of the first byte of an access is I. -/
theorem frameOfMemory : Obligations.FrameOfMemory :=
  fun _ _ _ _ h ha => exec_byteAt_outside h ha

/-- Settles O7: inside memory the word of the two bytes, above it the first address out of range. -/
theorem fetchReadsBigEndian : Obligations.FetchReadsBigEndian := by
  refine fun s a => ⟨fun ha => ⟨_, memRead2_ok s ha, toNat_wordOfBytes _ _⟩, fun ha => ?_, fun ha => ?_⟩
  · subst ha
    exact memRead2_outOfRange s (by omega)
  · rw [memRead2_outOfRange s (by omega), Nat.max_eq_left ha]

/-- Settles O48: the step is the load, whose two cases are the two lengths. -/
theorem loadCopiesRom : Obligations.LoadCopiesRom := by
  intro s rom rest hrun hsched
  rw [step_load hrun hsched]
  rcases loadRom_cases { s with schedule := rest } rom with ⟨hlen, hload⟩ | ⟨hlen, hload⟩
  · refine ⟨fun _ => ⟨_, hload, fun a => ?_, rfl⟩, fun hlong => by omega⟩
    exact Memory.read_writeList s.font rom s.mem 0x200 a
  · exact ⟨fun hshort => by omega, fun _ => hload⟩
end

section
/-! PROOFS. The opcode map (spec/30_encoding.md): a word from the fields of its layout, what the decoder can answer to a
word, and the (match, mask) row of the instruction it answers. -/

namespace Sys2Proof

/-! ### A word from its fields -/

section Fields

variable (w : Word)

/-- The layout `op nnn` (R93). -/
theorem addr_fields : w.extractLsb' 12 4 ++ w.extractLsb' 0 12 = w := by
  apply BitVec.eq_of_toNat_eq
  simp only [toNat_addr, BitVec.extractLsb'_toNat, Nat.shiftRight_eq_div_pow]
  omega

/-- The layout `op x kk` (R93). -/
theorem regImm_fields : w.extractLsb' 12 4 ++ w.extractLsb' 8 4 ++ w.extractLsb' 0 8 = w := by
  apply BitVec.eq_of_toNat_eq
  simp only [toNat_regImm, BitVec.extractLsb'_toNat, Nat.shiftRight_eq_div_pow]
  omega

/-- The layout `op x y n` (R93). -/
theorem regReg_fields : w.extractLsb' 12 4 ++ w.extractLsb' 8 4 ++ w.extractLsb' 4 4 ++ w.extractLsb' 0 4 = w := by
  apply BitVec.eq_of_toNat_eq
  simp only [toNat_regReg, BitVec.extractLsb'_toNat, Nat.shiftRight_eq_div_pow]
  omega

/-- The mask of a row told by the family alone. -/
theorem and_opMask : w &&& 0xF000#16 = w.extractLsb' 12 4 ++ 0x000#12 := by
  have hw : w &&& 0xF000#16 = (w.extractLsb' 12 4 ++ w.extractLsb' 0 12) &&& (BitVec.allOnes 4 ++ 0x000#12) := by
    rw [addr_fields]
    exact congrArg (w &&& ·) (by decide)
  rw [hw, BitVec.and_append, BitVec.and_allOnes, BitVec.and_zero]

/-- The mask of a row told by the family and the byte kk. -/
theorem and_opByteMask : w &&& 0xF0FF#16 = w.extractLsb' 12 4 ++ 0x0#4 ++ w.extractLsb' 0 8 := by
  have hw : w &&& 0xF0FF#16 = (w.extractLsb' 12 4 ++ w.extractLsb' 8 4 ++ w.extractLsb' 0 8) &&&
      (BitVec.allOnes 4 ++ 0x0#4 ++ BitVec.allOnes 8) := by
    rw [regImm_fields]
    exact congrArg (w &&& ·) (by decide)
  rw [hw, BitVec.and_append, BitVec.and_append, BitVec.and_allOnes, BitVec.and_allOnes, BitVec.and_zero]

/-- The mask of a row told by the family and the nibble n. -/
theorem and_opNibbleMask : w &&& 0xF00F#16 = w.extractLsb' 12 4 ++ 0x0#4 ++ 0x0#4 ++ w.extractLsb' 0 4 := by
  have hw : w &&& 0xF00F#16 = (w.extractLsb' 12 4 ++ w.extractLsb' 8 4 ++ w.extractLsb' 4 4 ++ w.extractLsb' 0 4) &&&
      (BitVec.allOnes 4 ++ 0x0#4 ++ 0x0#4 ++ BitVec.allOnes 4) := by
    rw [regReg_fields]
    exact congrArg (w &&& ·) (by decide)
  rw [hw, BitVec.and_append, BitVec.and_append, BitVec.and_append, BitVec.and_allOnes, BitVec.and_allOnes,
    BitVec.and_zero, BitVec.and_zero]

end Fields

variable {w : Word} {op x n : Nibble} {kk : Byte}

theorem addr_of_op (hop : (w.extractLsb' 12 4).toNat = op.toNat) : op ++ w.extractLsb' 0 12 = w := by
  rw [← BitVec.eq_of_toNat_eq hop, addr_fields]

theorem regImm_of_op (hop : (w.extractLsb' 12 4).toNat = op.toNat) :
    op ++ w.extractLsb' 8 4 ++ w.extractLsb' 0 8 = w := by
  rw [← BitVec.eq_of_toNat_eq hop, regImm_fields]

theorem regImm_of_op_kk (hop : (w.extractLsb' 12 4).toNat = op.toNat) (hkk : (w.extractLsb' 0 8).toNat = kk.toNat) :
    op ++ w.extractLsb' 8 4 ++ kk = w := by
  rw [← BitVec.eq_of_toNat_eq hkk, regImm_of_op hop]

theorem regReg_of_op (hop : (w.extractLsb' 12 4).toNat = op.toNat) :
    op ++ w.extractLsb' 8 4 ++ w.extractLsb' 4 4 ++ w.extractLsb' 0 4 = w := by
  rw [← BitVec.eq_of_toNat_eq hop, regReg_fields]

theorem regReg_of_op_n (hop : (w.extractLsb' 12 4).toNat = op.toNat) (hn : (w.extractLsb' 0 4).toNat = n.toNat) :
    op ++ w.extractLsb' 8 4 ++ w.extractLsb' 4 4 ++ n = w := by
  rw [← BitVec.eq_of_toNat_eq hn, regReg_of_op hop]

/-! ### What the decoder can answer -/

/-- The answers to a word that say all of it: the instruction whose word it is, or none for a word of R97's lists. -/
inductive FaithfulAnswer (w : Word) : Option Instr → Prop where
  | legal {i : Instr} (h : encode i = w) : FaithfulAnswer w (some i)
  | illegal (h : illegalWord w = true) : FaithfulAnswer w none

/-- The fields each branch of the decoder tests and passes on make up the word again; the branches that answer none are
R97's lists. -/
theorem decodeWord_faithful (w : Word) : FaithfulAnswer w (decodeWord w) := by
  unfold decodeWord
  dsimp only
  split
  case h_1 hop =>
    split
    case isTrue h => exact .legal h.symm
    case isFalse =>
      split
      case isTrue h => exact .legal h.symm
      case isFalse => exact .illegal (by simp_all [illegalWord, ← BitVec.toNat_inj])
  case h_2 hop | h_3 hop | h_11 hop | h_12 hop => exact .legal (addr_of_op hop)
  case h_4 hop | h_5 hop | h_7 hop | h_8 hop | h_13 hop => exact .legal (regImm_of_op hop)
  case h_6 hop | h_10 hop =>
    split
    case isTrue hn => exact .legal (regReg_of_op_n hop (congrArg BitVec.toNat hn))
    case isFalse => exact .illegal (by simp_all [illegalWord, ← BitVec.toNat_inj])
  case h_9 hop =>
    split
    case h_10 => exact .illegal (by simp_all [illegalWord, ← BitVec.toNat_inj]; omega)
    all_goals
      rename_i hn
      exact .legal (regReg_of_op_n hop hn)
  case h_14 hop => exact .legal (regReg_of_op hop)
  case h_15 hop =>
    split
    case isTrue hkk => exact .legal (regImm_of_op_kk hop (congrArg BitVec.toNat hkk))
    case isFalse =>
      split
      case isTrue hkk => exact .legal (regImm_of_op_kk hop (congrArg BitVec.toNat hkk))
      case isFalse => exact .illegal (by simp_all [illegalWord, ← BitVec.toNat_inj])
  case h_16 hop =>
    split
    case h_10 => exact .illegal (by simp_all [illegalWord, ← BitVec.toNat_inj])
    all_goals
      rename_i hkk
      exact .legal (regImm_of_op_kk hop hkk)
  case h_17 =>
    have hlt : (w.extractLsb' 12 4).toNat < 16 := (w.extractLsb' 12 4).isLt
    exact absurd hlt (by grind)

theorem encode_of_decodeWord {i : Instr} (h : decodeWord w = some i) : encode i = w := by
  have hfaithful := decodeWord_faithful w
  rw [h] at hfaithful
  cases hfaithful with
  | legal hw => exact hw

theorem illegalWord_of_decodeWord_none (h : decodeWord w = none) : illegalWord w = true := by
  have hfaithful := decodeWord_faithful w
  rw [h] at hfaithful
  cases hfaithful with
  | illegal hw => exact hw

open Laws.EncodedWordLegal in
/-- No instruction's word is in R97's lists. -/
theorem legalWord_encode : ∀ i : Instr, legalWord (encode i) = true
  | .cls => cls | .ret => ret | .jp a => jp a | .call a => call a | .ldI a => ldI a | .jpV0 a => jpV0 a
  | .seImm x b => seImm x b | .sneImm x b => sneImm x b | .ldImm x b => ldImm x b | .addImm x b => addImm x b
  | .rnd x b => rnd x b | .drw x y n => drw x y n | .seReg x y => seReg x y | .sneReg x y => sneReg x y
  | .ldReg x y => ldReg x y | .orReg x y => orReg x y | .andReg x y => andReg x y | .xorReg x y => xorReg x y
  | .addReg x y => addReg x y | .subReg x y => subReg x y | .shrReg x y => shrReg x y | .subnReg x y => subnReg x y
  | .shlReg x y => shlReg x y | .skp x => skp x | .sknp x => sknp x | .ldVxDt x => ldVxDt x | .ldVxK x => ldVxK x
  | .ldDtVx x => ldDtVx x | .ldStVx x => ldStVx x | .addI x => addI x | .ldF x => ldF x | .ldB x => ldB x
  | .stRegs x => stRegs x | .ldRegs x => ldRegs x

theorem decodeWord_none_of_illegalWord (h : illegalWord w = true) : decodeWord w = none := by
  cases hdec : decodeWord w with
  | none => rfl
  | some i =>
    have hlegal : legalWord w = true := encode_of_decodeWord hdec ▸ legalWord_encode i
    simp [legalWord, h] at hlegal

/-! ### The rows of the opcode map

A word of a row has the fields of the row's match that the row's mask covers. -/

theorem op_of_opMask {m : Word} (h : w &&& 0xF000#16 = m) : w.extractLsb' 12 4 = m.extractLsb' 12 4 := by
  rw [← h, and_opMask, op_of_addr]

theorem op_kk_of_opByteMask {m : Word} (h : w &&& 0xF0FF#16 = m) :
    w.extractLsb' 12 4 = m.extractLsb' 12 4 ∧ w.extractLsb' 0 8 = m.extractLsb' 0 8 := by
  rw [← h, and_opByteMask, op_of_regImm, kk_of_regImm]
  exact ⟨rfl, rfl⟩

theorem op_n_of_opNibbleMask {m : Word} (h : w &&& 0xF00F#16 = m) :
    w.extractLsb' 12 4 = m.extractLsb' 12 4 ∧ w.extractLsb' 0 4 = m.extractLsb' 0 4 := by
  rw [← h, and_opNibbleMask, op_of_regReg, n_of_regReg]
  exact ⟨rfl, rfl⟩

/-- The word of an instruction lies in the instruction's row. -/
theorem encode_and_mask (i : Instr) : encode i &&& (opcodeRow i).2 = (opcodeRow i).1 := by
  cases i with
  | cls | ret => rfl
  | jp _ | call _ | ldI _ | jpV0 _ | seImm _ _ | sneImm _ _ | ldImm _ _ | addImm _ _ | rnd _ _ | drw _ _ _ =>
    simp [encode, opcodeRow, and_opMask]
  | seReg _ _ | sneReg _ _ | ldReg _ _ | orReg _ _ | andReg _ _ | xorReg _ _ | addReg _ _ | subReg _ _ | shrReg _ _
  | subnReg _ _ | shlReg _ _ => simp [encode, opcodeRow, and_opNibbleMask]
  | skp _ | sknp _ | ldVxDt _ | ldVxK _ | ldDtVx _ | ldStVx _ | addI _ | ldF _ | ldB _ | stRegs _ | ldRegs _ =>
    simp [encode, opcodeRow, and_opByteMask]

/-- A word of a row decodes to an instruction of that row: the fields the row's mask covers choose the branch of the
decoder. -/
theorem decodeWord_of_row {i : Instr} (h : w &&& (opcodeRow i).2 = (opcodeRow i).1) :
    ∃ j, decodeWord w = some j ∧ opcodeRow j = opcodeRow i := by
  cases i with
  | cls | ret =>
    obtain rfl : w = _ := BitVec.and_allOnes.symm.trans h
    exact ⟨_, rfl, rfl⟩
  | jp _ | call _ | ldI _ | jpV0 _ | seImm _ _ | sneImm _ _ | ldImm _ _ | addImm _ _ | rnd _ _ | drw _ _ _ =>
    have hop := op_of_opMask h
    simp [decodeWord, hop, opcodeRow]
  | seReg _ _ | sneReg _ _ | ldReg _ _ | orReg _ _ | andReg _ _ | xorReg _ _ | addReg _ _ | subReg _ _ | shrReg _ _
  | subnReg _ _ | shlReg _ _ =>
    obtain ⟨hop, hn⟩ := op_n_of_opNibbleMask h
    simp [decodeWord, hop, hn, opcodeRow]
  | skp _ | sknp _ | ldVxDt _ | ldVxK _ | ldDtVx _ | ldStVx _ | addI _ | ldF _ | ldB _ | stRegs _ | ldRegs _ =>
    obtain ⟨hop, hkk⟩ := op_kk_of_opByteMask h
    simp [decodeWord, hop, hkk, opcodeRow]

/-- A word that decodes lies in the row of its instruction. -/
theorem row_of_decodeWord {i : Instr} (h : decodeWord w = some i) : w &&& (opcodeRow i).2 = (opcodeRow i).1 := by
  rw [← encode_of_decodeWord h]
  exact encode_and_mask i

end Sys2Proof

open Sys2Proof

/-- Settles O1: the operand types are the fields' widths, so the round trip holds of every instruction. -/
theorem decodeEncodeRoundTrip : Obligations.DecodeEncodeRoundTrip :=
  fun i _ => decodeWord_encode i

/-- Settles O2: the decoder's answers are faithful. -/
theorem encodeDecodeRoundTrip : Obligations.EncodeDecodeRoundTrip :=
  fun _ _ h => encode_of_decodeWord h

/-- Settles O3: a word lies in the row of the instruction it decodes to, and decodes into every row it lies in. -/
theorem decodeFollowsOpcodeMap : Obligations.DecodeFollowsOpcodeMap := by
  refine fun w => ⟨fun i => ⟨?_, decodeWord_of_row⟩, fun hnone i hrow => ?_, fun hrows => ?_⟩
  · rintro ⟨j, hj, hrow⟩
    rw [← hrow]
    exact row_of_decodeWord hj
  · obtain ⟨j, hj, -⟩ := decodeWord_of_row hrow
    simp [hnone] at hj
  · exact Option.eq_none_iff_forall_ne_some.mpr fun i hi => hrows i (row_of_decodeWord hi)

/-- Settles O4: an answer of none is given to a listed word only, and a listed word is no instruction's word. -/
theorem illegalWordsAreTheListedFamilies : Obligations.IllegalWordsAreTheListedFamilies :=
  fun _ => ⟨illegalWord_of_decodeWord_none, decodeWord_none_of_illegalWord⟩

/-- Settles O6: six of the words are what the encoder gives, and the seventh is listed in R97. -/
theorem specWordsDecode : Obligations.SpecWordsDecode :=
  ⟨decodeWord_encode .cls, decodeWord_encode (.call 0x206), decodeWord_encode (.subnReg 1 2),
    decodeWord_encode (.drw 1 2 5), decodeWord_encode (.sknp 5), decodeWord_encode (.stRegs 3),
    decodeWord_none_of_illegalWord (by decide)⟩
end

section
/-! PROOFS. The cycle (spec/40_cycle.md): what a step that performs a cycle does, everything an instruction can answer,
and that the key wait is read by Fx0A only and the sound timer by no instruction. -/

namespace Sys2Proof.Machine

variable {i : Instr} {s t : State}

/-! ### A step that performs a cycle -/

theorem step_of_nextIsCycle (hrun : s.halted = none) (hnext : s.nextIsCycle) :
    step s = cycle { s with schedule := s.schedule.tail } := by
  have hhead : s.schedule.head?.getD .cycle = .cycle := by
    rcases hnext with hnil | hcycle
    · rw [hnil]; rfl
    · rw [hcycle]; rfl
  rw [step_eq_perform, hhead]
  simp only [perform, hrun, act]

/-- A fetch above 0xFFE commits nothing (R112, R113). -/
theorem cycle_of_pc_above (h : 0xFFE < s.pc.toNat) :
    cycle s = .next { s with drew := false, halted := some (.addressOutOfRange (max s.pc.toNat 4096)) } := by
  rw [cycle, fetch, State.beginCycle_pc, memRead2_outOfRange _ h]
  rfl

/-- A fetch inside memory runs the big-endian word at pc (R113). -/
theorem cycle_of_pc_le (h : s.pc.toNat ≤ 0xFFE) :
    cycle s = runWord (wordOfBytes (s.byteAt s.pc.toNat) (s.byteAt (s.pc.toNat + 1))) s.beginCycle := by
  rw [cycle, fetch, State.beginCycle_pc, memRead2_ok _ h]
  rfl

theorem step_of_pc_above (hrun : s.halted = none) (hnext : s.nextIsCycle) (h : 0xFFE < s.pc.toNat) :
    step s = .next { s with
      drew := false
      schedule := s.schedule.tail
      halted := some (.addressOutOfRange (max s.pc.toNat 4096)) } :=
  (step_of_nextIsCycle hrun hnext).trans (cycle_of_pc_above (s := { s with schedule := s.schedule.tail }) h)

theorem step_of_pc_le (hrun : s.halted = none) (hnext : s.nextIsCycle) (h : s.pc.toNat ≤ 0xFFE) :
    step s = runWord (wordOfBytes (s.byteAt s.pc.toNat) (s.byteAt (s.pc.toNat + 1)))
      { s with drew := false, schedule := s.schedule.tail } :=
  (step_of_nextIsCycle hrun hnext).trans (cycle_of_pc_le (s := { s with schedule := s.schedule.tail }) h)

theorem runWord_of_some {w : Word} (h : decodeWord w = some i) : runWord w s = exec i s.advance := by
  simp only [runWord, h]

/-- An unknown word undoes the fetch advance (R118). -/
theorem runWord_of_none {w : Word} (h : decodeWord w = none) :
    runWord w s = .next { s with halted := some (.unknownOpcode w) } := by
  simp [runWord, h, raise, stopIn, State.latch, State.rollback, State.advance]

/-! ### Everything an instruction can answer -/

/-- Everything a store of bytes can answer: the font policy is tested at the first byte, the end of memory after it. -/
theorem writeBytes_eq (s : State) (a : Nat) {bs : List Byte} (hb : bs ≠ []) :
    writeBytes s a bs =
      if a ≤ 0x04F ∧ s.fontWrite = .refuse then .error (.refused (.fontWrite a))
      else if a + bs.length ≤ 4096 then .ok { s with mem := Memory.writeList s.font s.mem a bs }
      else .error (.raised (.addressOutOfRange (max a 4096))) := by
  split
  case isTrue hfont => exact writeBytes_font s hb hfont.1 hfont.2
  case isFalse hfont =>
    have hpolicy : 0x04F < a ∨ s.fontWrite = .store := by
      cases hw : s.fontWrite with
      | store => exact .inr rfl
      | refuse => exact .inl (Nat.lt_of_not_le fun ha => hfont ⟨ha, hw⟩)
    split
    case isTrue hlen => exact writeBytes_ok bs s a hlen hpolicy
    case isFalse hlen => exact writeBytes_outOfRange bs s a hb (by omega) hpolicy

theorem decimalDigits_ne_nil (b : Byte) : decimalDigits b ≠ [] := List.cons_ne_nil _ _

theorem State.regsFrom_succ_ne_nil (s : State) (k n : Nat) : s.regsFrom k (n + 1) ≠ [] := List.cons_ne_nil _ _

/-- The answers of the instruction `i` in the state `s`: it runs to its end and leaves in pc what R116's table gives;
it raises an error, with nothing committed (R112); or it is one of the two that store, refused at the font (R123). -/
inductive ExecAnswer (i : Instr) (s : State) : Host.Outcome State Fault Refusal → Prop where
  | done {t : State} (hpc : t.pc = pcAfter i s) (hlatch : t.halted = s.halted) : ExecAnswer i s (.next t)
  | error (e : Error) : ExecAnswer i s (.next { s with pc := s.pc - 2, halted := some e })
  | refusal (hi : s.i.toNat ≤ 0x04F) (hpolicy : s.fontWrite = .refuse)
      (hstores : (∃ x, i = .ldB x) ∨ ∃ x, i = .stRegs x) : ExecAnswer i s (.refused (.fontWrite s.i.toNat))

/-- An instruction that may skip, told by the table entry for its condition. -/
theorem ExecAnswer.of_skipIf {c : Bool} (h : pcAfter i s = if c then s.pc + 2 else s.pc) :
    ExecAnswer i s (.next (skipIf c s)) := by
  rw [skipIf_eq]
  exact .done h.symm rfl

theorem execRet_answer : ExecAnswer .ret s (execRet s) := by
  rcases Nat.eq_zero_or_pos s.sp.val with h0 | hpos
  · rw [execRet, popPc_underflow s h0]
    exact .error _
  · rw [execRet, popPc_ok s hpos]
    exact .done (by simp [pcAfter, hpos.ne']) rfl

theorem execCall_answer (nnn : Addr12) : ExecAnswer (.call nnn) s (execCall nnn s) := by
  rcases Nat.lt_or_ge s.sp.val 16 with hlt | hge
  · rw [execCall, pushPc_ok s hlt]
    exact .done rfl rfl
  · rw [execCall, pushPc_overflow s (by omega)]
    exact .error _

theorem execDrw_answer (x y n : Nibble) : ExecAnswer (.drw x y n) s (execDrw x y n s) := by
  rw [execDrw]
  split
  case isTrue hblocked => exact .done (by simp [pcAfter, hblocked]) rfl
  case isFalse hopen =>
    rcases readBytes_cases s (effAddr s 0) n.toNat with ⟨hread, -⟩ | ⟨hread, -⟩ <;> rw [hread]
    · exact .done (by simp [pcAfter, hopen]) rfl
    · exact .error _

theorem execLdVxK_answer (x : Nibble) : ExecAnswer (.ldVxK x) s (execLdVxK x s) := by
  cases hw : s.wait with
  | running | awaitingKeyPress =>
    simp only [execLdVxK, hw]
    exact .done (by simp [pcAfter, hw, awaitPress]) rfl
  | awaitingKeyRelease k =>
    simp only [execLdVxK, hw]
    split
    case isTrue hk => exact .done (by simp [pcAfter, hw, hk]) rfl
    case isFalse hk => exact .done (by simp [pcAfter, hw, hk]) rfl

theorem execLdB_answer (x : Nibble) : ExecAnswer (.ldB x) s (execLdB x s) := by
  rw [execLdB, writeBytes_eq s _ (decimalDigits_ne_nil _)]
  split
  case isTrue hfont => exact .refusal hfont.1 hfont.2 (.inl ⟨x, rfl⟩)
  case isFalse =>
    split
    · exact .done rfl rfl
    · exact .error _

theorem execStRegs_answer (x : Nibble) : ExecAnswer (.stRegs x) s (execStRegs x s) := by
  rw [execStRegs, writeBytes_eq s _ (s.regsFrom_succ_ne_nil _ _)]
  split
  case isTrue hfont => exact .refusal hfont.1 hfont.2 (.inr ⟨x, rfl⟩)
  case isFalse =>
    split
    · exact .done rfl rfl
    · exact .error _

theorem execLdRegs_answer (x : Nibble) : ExecAnswer (.ldRegs x) s (execLdRegs x s) := by
  rw [execLdRegs]
  rcases readBytes_cases s (effAddr s 0) (x.toNat + 1) with ⟨hread, -⟩ | ⟨hread, -⟩ <;> rw [hread]
  · rw [Except.map, State.setRegsFrom_eq]
    exact .done rfl rfl
  · exact .error _

/-- What each instruction answers, over every state. -/
theorem exec_answer (i : Instr) (s : State) : ExecAnswer i s (exec i s) := by
  cases i with
  | jp _ | jpV0 _ | cls | ldImm _ _ | addImm _ _ | ldReg _ _ | orReg _ _ | andReg _ _ | xorReg _ _ | addReg _ _
  | subReg _ _ | shrReg _ _ | subnReg _ _ | shlReg _ _ | ldI _ | rnd _ _ | ldVxDt _ | ldDtVx _ | ldStVx _ | addI _
  | ldF _ => exact .done rfl rfl
  | seImm _ _ | sneImm _ _ | seReg _ _ | sneReg _ _ => exact .of_skipIf (by simp [pcAfter])
  | skp _ => exact .of_skipIf rfl
  | sknp _ => exact .of_skipIf (by simp only [pcAfter, keyIndex, Bool.not_eq_true', ← Bool.not_eq_true, ite_not])
  | ret => exact execRet_answer
  | call nnn => exact execCall_answer nnn
  | drw x y n => exact execDrw_answer x y n
  | ldVxK x => exact execLdVxK_answer x
  | ldB x => exact execLdB_answer x
  | stRegs x => exact execStRegs_answer x
  | ldRegs x => exact execLdRegs_answer x

/-- A next state is the end of the instruction's run, or the state before the cycle with an error latched. -/
theorem exec_next_cases (h : exec i s = .next t) :
    (t.pc = pcAfter i s ∧ t.halted = s.halted) ∨ ∃ e, t = { s with pc := s.pc - 2, halted := some e } := by
  have hanswer := exec_answer i s
  rw [h] at hanswer
  cases hanswer with
  | done hpc hlatch => exact .inl ⟨hpc, hlatch⟩
  | error e => exact .inr ⟨e, rfl⟩

/-! ### What an instruction reads

Two states that agree on the components an access reads get the same answer from it. -/

theorem State.bytesFrom_congr (hm : t.mem = s.mem) (hf : t.font = s.font) : ∀ n a, t.bytesFrom a n = s.bytesFrom a n
  | 0, _ => rfl
  | n + 1, a => by rw [State.bytesFrom, State.bytesFrom, State.byteAt_congr hm hf, State.bytesFrom_congr hm hf n]

theorem readBytes_congr (hm : t.mem = s.mem) (hf : t.font = s.font) (a n : Nat) :
    readBytes t a n = readBytes s a n := by
  rcases readBytes_cases s a n with ⟨hs, hin⟩ | ⟨hs, hout⟩ <;>
    rcases readBytes_cases t a n with ⟨ht, hin'⟩ | ⟨ht, hout'⟩
  · rw [hs, ht, State.bytesFrom_congr hm hf]
  · omega
  · omega
  · rw [hs, ht]

theorem State.regsFrom_congr (hv : t.v = s.v) : ∀ n k, t.regsFrom k n = s.regsFrom k n
  | 0, _ => rfl
  | n + 1, k => by rw [State.regsFrom, State.regsFrom, State.reg_congr hv, State.regsFrom_congr hv n]

theorem lowestFrom_congr (hk : t.key = s.key) : ∀ n k, lowestFrom t k n = lowestFrom s k n
  | 0, _ => rfl
  | n + 1, k => by
    have hpressed : t.keyPressed = s.keyPressed := by funext j; simp only [State.keyPressed, hk]
    rw [lowestFrom, lowestFrom, hpressed, lowestFrom_congr hk n]

/-! ### The key wait and the sound timer -/

/-- The state with the key wait and the sound timer changed by `fw` and `fs`. -/
abbrev State.mapWaitSound (s : State) (fw : KeyWait → KeyWait) (fs : Byte → Byte) : State :=
  { s with wait := fw s.wait, st := fs s.st }

variable (fw : KeyWait → KeyWait) (fs : Byte → Byte)

theorem skipIf_mapWaitSound (c : Bool) : skipIf c (s.mapWaitSound fw fs) = (skipIf c s).mapWaitSound fw fs := by
  cases c <;> rfl

theorem setRegsFrom_mapWaitSound : ∀ (bs : List Byte) (s : State) (k : Nat),
    (s.mapWaitSound fw fs).setRegsFrom k bs = (s.setRegsFrom k bs).mapWaitSound fw fs
  | [], _, _ => rfl
  | b :: bs, s, k => setRegsFrom_mapWaitSound bs (s.setReg (BitVec.ofNat 4 k) b) (k + 1)

theorem readBytes_mapWaitSound (a n : Nat) : readBytes (s.mapWaitSound fw fs) a n = readBytes s a n :=
  readBytes_congr (s := s) (t := s.mapWaitSound fw fs) rfl rfl a n

theorem regsFrom_mapWaitSound (k n : Nat) : (s.mapWaitSound fw fs).regsFrom k n = s.regsFrom k n :=
  State.regsFrom_congr (s := s) (t := s.mapWaitSound fw fs) rfl n k

theorem effAddr_mapWaitSound (k : Nat) : effAddr (s.mapWaitSound fw fs) k = effAddr s k := rfl

theorem complete_mapWaitSound (s : State) (r : Except Stop State) :
    complete (s.mapWaitSound fw fs) (Except.map (·.mapWaitSound fw fs) r)
      = mapNext (·.mapWaitSound fw fs) (complete s r) := by
  rcases r with (e | why) | t <;> rfl

theorem writeBytes_mapWaitSound (s : State) (a : Nat) {bs : List Byte} (hb : bs ≠ []) :
    writeBytes (s.mapWaitSound fw fs) a bs = Except.map (·.mapWaitSound fw fs) (writeBytes s a bs) := by
  rw [writeBytes_eq _ a hb, writeBytes_eq s a hb]
  split
  · rfl
  · split <;> rfl

/-- Fx0A reads the key wait and writes it, and leaves the sound timer alone. -/
theorem execLdVxK_mapSound (x : Nibble) :
    execLdVxK x (s.mapWaitSound id fs) = mapNext (·.mapWaitSound id fs) (execLdVxK x s) := by
  have hpress : awaitPress (s.mapWaitSound id fs) = (awaitPress s).mapWaitSound id fs := by
    have hlowest : lowestPressed (s.mapWaitSound id fs) = lowestPressed s := lowestFrom_congr rfl 16 0
    rw [awaitPress, hlowest]
    rfl
  cases hw : s.wait with
  | running | awaitingKeyPress => simp only [execLdVxK, id, hw, ← hpress, mapNext]
  | awaitingKeyRelease k =>
    have hkey : (s.mapWaitSound id fs).keyPressed k = s.keyPressed k := rfl
    simp only [execLdVxK, id, hw, hkey]
    split <;> rfl

/-- The key wait matters to Fx0A alone, and the sound timer to none but Fx18, which overwrites it. -/
theorem exec_mapWaitSound (hwait : ∀ x, i = .ldVxK x → fw = id) (hsound : ∀ x, i = .ldStVx x → fs = id) :
    exec i (s.mapWaitSound fw fs) = mapNext (·.mapWaitSound fw fs) (exec i s) := by
  cases i with
  | jp _ | jpV0 _ | cls | ldImm _ _ | addImm _ _ | ldReg _ _ | orReg _ _ | andReg _ _ | xorReg _ _ | addReg _ _
  | subReg _ _ | shrReg _ _ | subnReg _ _ | shlReg _ _ | ldI _ | rnd _ _ | ldVxDt _ | ldDtVx _ | addI _ | ldF _ => rfl
  | ldStVx x =>
    obtain rfl := hsound x rfl
    rfl
  | seImm _ _ | sneImm _ _ | seReg _ _ | sneReg _ _ | skp _ | sknp _ =>
    exact congrArg _ (skipIf_mapWaitSound fw fs _)
  | ret =>
    simp only [exec, execRet, popPc]
    split <;> rfl
  | call nnn =>
    simp only [exec, execCall, pushPc]
    split <;> rfl
  | drw x y n =>
    simp only [exec, execDrw]
    split
    · rfl
    · rw [effAddr_mapWaitSound, readBytes_mapWaitSound, ← complete_mapWaitSound]
      cases readBytes s (effAddr s 0) n.toNat <;> rfl
  | ldVxK x =>
    obtain rfl := hwait x rfl
    exact execLdVxK_mapSound fs x
  | ldB x =>
    rw [exec, exec, execLdB, execLdB, ← complete_mapWaitSound,
      ← writeBytes_mapWaitSound fw fs s _ (decimalDigits_ne_nil _)]
    rfl
  | stRegs x =>
    rw [exec, exec, execStRegs, execStRegs, effAddr_mapWaitSound, regsFrom_mapWaitSound,
      writeBytes_mapWaitSound fw fs s _ (s.regsFrom_succ_ne_nil _ _), ← complete_mapWaitSound]
    cases writeBytes s (effAddr s 0) (s.regsFrom 0 (x.toNat + 1)) <;> rfl
  | ldRegs x =>
    rw [exec, exec, execLdRegs, execLdRegs, effAddr_mapWaitSound, readBytes_mapWaitSound, ← complete_mapWaitSound]
    cases readBytes s (effAddr s 0) (x.toNat + 1) with
    | error why => rfl
    | ok bs =>
      exact congrArg (fun u => complete (s.mapWaitSound fw fs) (.ok (State.addToI u _)))
        (setRegsFrom_mapWaitSound fw fs bs s 0)

end Sys2Proof.Machine

open Sys2Proof Sys2Proof.Machine

/-- Settles O12: of the two next states an instruction can answer, the first keeps the latch empty. -/
theorem errorsCommitNothing : Obligations.ErrorsCommitNothing := by
  intro i s t e hrun h hlatched
  rcases exec_next_cases h with ⟨-, hlatch⟩ | ⟨e', rfl⟩
  · simp [hlatch, hrun] at hlatched
  · cases hlatched
    rfl

/-- Settles O14: no answer of an instruction is a fault, and one is a refusal. -/
theorem refusalIsFontWriteOnly : Obligations.RefusalIsFontWriteOnly := by
  intro i s
  have hanswer := exec_answer i s
  generalize exec i s = o at hanswer
  cases hanswer with
  | done | error => simp
  | refusal hi hpolicy hstores => simp [hi, hpolicy, hstores]

/-- Settles O56: of the two next states an instruction can answer, the second is halted. -/
theorem pcAfterInstruction : Obligations.PcAfterInstruction := by
  intro i s t _ h hrun
  rcases exec_next_cases h with ⟨hpc, -⟩ | ⟨e, rfl⟩
  · exact hpc
  · cases hrun

/-- Settles O57: each of the two parts is changed and the other one kept. -/
theorem waitAndSoundTimerUnread : Obligations.WaitAndSoundTimerUnread := by
  refine fun i s => ⟨fun w hi => ?_, fun b hi => ?_⟩
  · exact exec_mapWaitSound (fun _ => w) id (fun x hx => absurd hx (hi x)) fun _ _ => rfl
  · exact exec_mapWaitSound id (fun _ => b) (fun _ _ => rfl) fun x hx => absurd hx (hi x)

/-- Settles O8: the fetch reads the word at pc, which decodes to the instruction. -/
theorem stepRunsDecodedInstruction : Obligations.StepRunsDecodedInstruction := by
  intro s i hrun hnext hpc hdec _
  rw [step_of_pc_le hrun hnext hpc]
  exact runWord_of_some hdec

/-- Settles O9: the first address above 4095 is 4096 at pc = 0xFFF, and pc itself above. -/
theorem fetchErrorLatches : Obligations.FetchErrorLatches := by
  refine fun s hrun hnext => ⟨fun hpc => ?_, fun hpc => ?_⟩
  · rw [step_of_pc_above hrun hnext (by omega), hpc]
    rfl
  · rw [step_of_pc_above hrun hnext (by omega), Nat.max_eq_left hpc]

/-- Settles O10: the fetch reads the word at pc, which decodes to nothing. -/
theorem unknownWordLatches : Obligations.UnknownWordLatches := by
  rintro s w hrun hnext hpc rfl hdec
  rw [step_of_pc_le hrun hnext hpc]
  exact runWord_of_none hdec
end

section
/-! PROOFS. Control transfer (spec/41_control_flow.md): the targets of the jumps, the answers of a call and of a return,
the skips, and calls nested with their returns. -/

namespace Sys2Proof.Machine

variable {i : Instr} {s t : State}

/-! ### Jump targets -/

/-- The twelve bits are zero-extended (R94, R130). -/
theorem toNat_absTarget (nnn : Addr12) : (absTarget nnn).toNat = nnn.toNat :=
  BitVec.toNat_setWidth_of_le (by decide)

/-- The sum of twelve bits and eight bits does not wrap in sixteen (R140). -/
theorem toNat_offsetTarget (s : State) (nnn : Addr12) :
    (offsetTarget s nnn).toNat = nnn.toNat + (s.reg 0).toNat := by
  simp only [offsetTarget]
  bv_omega

/-- Of the pcs a 12-bit jump can reach, 0xFFF alone is above 0xFFE, and there the second byte is out of range (R113). -/
theorem fetch_of_absTarget_above {nnn : Addr12} (hpc : s.pc = absTarget nnn) (h : 0xFFE < s.pc.toNat) :
    fetch s = .error (.raised (.addressOutOfRange 4096)) := by
  have hle : s.pc.toNat ≤ 4096 := by
    rw [hpc, toNat_absTarget]
    exact nnn.isLt.le
  rw [fetch, memRead2_outOfRange s h, Nat.max_eq_right hle]

/-! ### Calls and returns -/

/-- The state after a call that fits the stack (R133). -/
abbrev State.called (s : State) (nnn : Addr12) (h : s.sp.val < 16) : State :=
  { s with stack := s.stack.set s.sp.val s.pc h, sp := ⟨s.sp.val + 1, by omega⟩, pc := absTarget nnn }

/-- The state after a return on a stack that is not empty (R131). -/
abbrev State.returned (s : State) (h : 0 < s.sp.val) : State :=
  { s with sp := ⟨s.sp.val - 1, by omega⟩, pc := s.stack[s.sp.val - 1]'(by omega) }

theorem exec_call_of_lt (nnn : Addr12) (h : s.sp.val < 16) : exec (.call nnn) s = .next (s.called nnn h) := by
  rw [exec, execCall, pushPc_ok s h]
  rfl

theorem exec_call_of_full (nnn : Addr12) (h : s.sp.val = 16) :
    exec (.call nnn) s = .next { s with pc := s.pc - 2, halted := some .stackOverflow } := by
  rw [exec, execCall, pushPc_overflow s h]
  rfl

theorem exec_ret_of_pos (h : 0 < s.sp.val) : exec .ret s = .next (s.returned h) := by
  rw [exec, execRet, popPc_ok s h]
  rfl

theorem exec_ret_of_empty (h : s.sp.val = 0) :
    exec .ret s = .next { s with pc := s.pc - 2, halted := some .stackUnderflow } := by
  rw [exec, execRet, popPc_underflow s h]
  rfl

/-! ### Skips -/

@[simp] theorem skipIf_pc (c : Bool) (s : State) : (skipIf c s).pc = if c then s.pc + 2 else s.pc := by
  rw [skipIf_eq]

@[simp] theorem skipIf_v (c : Bool) (s : State) : (skipIf c s).v = s.v := by
  rw [skipIf_eq]

@[simp] theorem skipIf_halted (c : Bool) (s : State) : (skipIf c s).halted = s.halted := by
  rw [skipIf_eq]

@[simp] theorem skipIf_reg (c : Bool) (s : State) (r : Nibble) : (skipIf c s).reg r = s.reg r :=
  State.reg_congr (skipIf_v c s) r

/-- The families 0x5 and 0x9 have one instruction each, at low nibble 0 (R95). -/
theorem decodeWord_seReg_family (x y n : Nibble) :
    decodeWord (0x5#4 ++ x ++ y ++ n) = if n = 0 then some (.seReg x y) else none := by
  simp [decodeWord]

theorem decodeWord_sneReg_family (x y n : Nibble) :
    decodeWord (0x9#4 ++ x ++ y ++ n) = if n = 0 then some (.sneReg x y) else none := by
  simp [decodeWord]

/-! ### Nested calls -/

theorem runInstrs_append (is js : List Instr) (s : State) :
    runInstrs (is ++ js) s = andThen (runInstrs is s) (runInstrs js) := by
  induction is generalizing s with
  | nil => rfl
  | cons i is ih =>
    simp only [List.cons_append, runInstrs]
    cases exec i s.advance with
    | next u => exact ih u
    | fault r => rfl
    | refused r => rfl

theorem runInstrs_singleton (i : Instr) (s : State) : runInstrs [i] s = exec i s.advance := by
  rw [runInstrs]
  cases exec i s.advance <;> rfl

/-- Calls, the outermost first, and then as many returns. -/
def nestedCalls (ns : List Addr12) : List Instr := ns.map .call ++ List.replicate ns.length .ret

/-- The outermost call and the last return enclose the others. -/
theorem nestedCalls_cons (n : Addr12) (ns : List Addr12) :
    nestedCalls (n :: ns) = .call n :: (nestedCalls ns ++ [.ret]) := by
  simp [nestedCalls, List.replicate_succ']

/-- What a subroutine owes its caller: SP, the valid stack entries, the registers and the latch are as in `s`. -/
structure State.Restored (s t : State) : Prop where
  sp : t.sp = s.sp
  stack : ∀ k (h : k < 16), k < s.sp.val → t.stack[k]'h = s.stack[k]'h
  v : t.v = s.v
  halted : t.halted = s.halted

/-- A return pops what the enclosing call pushed, when the instructions between the two restored the callee's entry
state. -/
theorem exec_ret_of_restored {n : Addr12} (hlt : s.sp.val < 16) (h : (s.advance.called n hlt).Restored t) :
    ∃ u, exec .ret t.advance = .next u ∧ s.Restored u ∧ u.pc = s.pc + 2 := by
  obtain ⟨hsp, hstack, hv, hhalted⟩ := h
  have hval : t.sp.val = s.sp.val + 1 := congrArg Fin.val hsp
  have hpos : 0 < t.advance.sp.val := by simp [hval]
  refine ⟨_, exec_ret_of_pos hpos, ⟨?_, fun k hk hlow => ?_, hv, hhalted⟩, ?_⟩
  · exact Fin.ext (by simp [hval])
  · have hkeep := hstack k hk (by simp; omega)
    simpa [Vector.getElem_set_ne, hlow.ne'] using hkeep
  · have htop := hstack s.sp.val hlt (by simp)
    simpa [hval] using htop

/-- By induction from the outermost call inwards: nested calls that fit the stack restore what they found. -/
theorem runInstrs_nestedCalls (ns : List Addr12) (s : State) (hfit : s.sp.val + ns.length ≤ 16) :
    ∃ t, runInstrs (nestedCalls ns) s = .next t ∧ s.Restored t ∧ (ns ≠ [] → t.pc = s.pc + 2) := by
  induction ns generalizing s with
  | nil => exact ⟨s, rfl, ⟨rfl, fun _ _ _ => rfl, rfl, rfl⟩, fun h => absurd rfl h⟩
  | cons n ns ih =>
    rw [List.length_cons] at hfit
    have hlt : s.sp.val < 16 := by omega
    obtain ⟨t, hrun, hinner, -⟩ := ih (s.advance.called n hlt) (by simp; omega)
    obtain ⟨u, hret, hrestored, hpc⟩ := exec_ret_of_restored hlt hinner
    refine ⟨u, ?_, hrestored, fun _ => hpc⟩
    rw [nestedCalls_cons, runInstrs, exec_call_of_lt (s := s.advance) n hlt, andThen_next, runInstrs_append, hrun,
      andThen_next, runInstrs_singleton, hret]

/-- By induction on the calls: each but the last takes one of the entries left, and the last finds SP = 16. -/
theorem runInstrs_calls_overflow (ns : List Addr12) (s : State) (hlen : s.sp.val + ns.length = 17) :
    ∃ t, runInstrs (ns.map .call) s = .next t ∧ t.halted = some .stackOverflow ∧ t.sp.val = 16 := by
  induction ns generalizing s with
  | nil =>
    have hsp : s.sp.val < 17 := s.sp.isLt
    rw [List.length_nil] at hlen
    omega
  | cons n ns ih =>
    rw [List.length_cons] at hlen
    rw [List.map_cons, runInstrs]
    rcases Nat.lt_or_ge s.sp.val 16 with hlt | hge
    · rw [exec_call_of_lt (s := s.advance) n hlt, andThen_next]
      exact ih _ (by simp; omega)
    · have hfull : s.sp.val = 16 := by omega
      obtain rfl : ns = [] := List.eq_nil_of_length_eq_zero (by omega)
      rw [exec_call_of_full (s := s.advance) n hfull]
      exact ⟨_, rfl, rfl, hfull⟩

end Sys2Proof.Machine

open Sys2Proof Sys2Proof.Machine

/-- Settles O19: the nested calls restore what they found, and the call beyond the sixteenth entry overflows. -/
theorem callNestingReturnsOrOverflows : Obligations.CallNestingReturnsOrOverflows := by
  refine fun ns s hne => ⟨fun hfit => ?_, runInstrs_calls_overflow ns s⟩
  obtain ⟨t, hrun, hrestored, hpc⟩ := runInstrs_nestedCalls ns s hfit
  exact ⟨t, hrun, hpc hne, hrestored.sp, hrestored.v, hrestored.halted⟩

/-- Settles O15: a 12-bit target is taken as it is, and the only one that cannot be fetched is 0xFFF. -/
theorem jumpSetsPc : Obligations.JumpSetsPc := by
  refine fun nnn s => ⟨decodeWord_encode (.jp nnn), s.jumpTo (absTarget nnn), rfl, toNat_absTarget nnn, rfl, rfl,
    fun habove => ?_⟩
  exact fetch_of_absTarget_above (State.jumpTo_pc s _) habove

/-- Settles O16: the sum of the zero-extended fields does not wrap. -/
theorem offsetJumpAddsV0 : Obligations.OffsetJumpAddsV0 :=
  fun nnn s => ⟨decodeWord_encode (.jpV0 nnn), s.jumpTo (offsetTarget s nnn), rfl, toNat_offsetTarget s nnn, rfl⟩

/-- Settles O17: one entry of the stack is set, the one at SP. -/
theorem callPushesReturnAddress : Obligations.CallPushesReturnAddress := by
  refine fun nnn s => ⟨decodeWord_encode (.call nnn), fun hlt => ?_, exec_call_of_full nnn⟩
  refine ⟨_, exec_call_of_lt nnn hlt, toNat_absTarget nnn, rfl, ?_, fun k hk => ?_, rfl⟩
  · exact Vector.getElem?_set_self hlt
  · exact Vector.getElem?_set_ne hlt hk.symm

/-- Settles O18: the entry below SP is read, and no entry is written. -/
theorem returnPopsStack : Obligations.ReturnPopsStack := by
  refine fun s => ⟨decodeWord_encode .ret, fun hpos => ?_, exec_ret_of_empty⟩
  refine ⟨_, exec_ret_of_pos hpos, ?_, Nat.sub_add_cancel hpos, rfl, rfl⟩
  exact Vector.getElem?_eq_getElem _

/-- Settles O20: both are a skip, on a condition and on its negation. -/
theorem skipOnImmediate : Obligations.SkipOnImmediate := by
  refine fun x kk s => ⟨decodeWord_encode (.seImm x kk), decodeWord_encode (.sneImm x kk), ?_, ?_⟩
  · exact ⟨skipIf (s.reg x == kk) s, rfl, by simp, skipIf_reg _ s _, skipIf_halted _ s⟩
  · exact ⟨skipIf (s.reg x != kk) s, rfl, by simp, skipIf_reg _ s _, skipIf_halted _ s⟩

/-- Settles O21: both are a skip, on a condition and on its negation; the low nibble is what the decoder tests. -/
theorem skipOnRegisters : Obligations.SkipOnRegisters := by
  refine fun x y n s => ⟨decodeWord_seReg_family x y n, decodeWord_sneReg_family x y n, ?_, ?_⟩
  · exact ⟨skipIf (s.reg x == s.reg y) s, rfl, by simp, skipIf_v _ s⟩
  · exact ⟨skipIf (s.reg x != s.reg y) s, rfl, by simp, skipIf_v _ s⟩
end

section
/-! PROOFS. Registers and arithmetic (spec/42_alu.md): the flag computations as numbers, what a result with its flag
leaves in the registers, and the arithmetic of 8xy4 to 8xyE modulo 256. -/

namespace Sys2Proof.Machine

variable (s : State) {x q : Nibble}

/-! ### The flags as numbers -/

/-- A flag is 1 iff its condition holds (R24). -/
theorem toNat_flagByte (p : Prop) [Decidable p] : (flagByte (decide p)).toNat = if p then 1 else 0 := by
  by_cases h : p <;> simp [flagByte, h]

theorem toNat_carry (a b : Byte) : (carry a b).toNat = if a.toNat + b.toNat > 255 then 1 else 0 :=
  toNat_flagByte _

theorem toNat_noBorrow (a b : Byte) : (noBorrow a b).toNat = if a.toNat ≥ b.toNat then 1 else 0 :=
  toNat_flagByte _

theorem toNat_byte_and_one (b : Byte) : (b &&& 1).toNat = b.toNat % 2 := by
  simp [Nat.and_one_is_mod]

/-- Bit 0 is the remainder of the division by 2 (R162). -/
theorem toNat_bitOutRight (b : Byte) : (bitOutRight b).toNat = b.toNat % 2 :=
  toNat_byte_and_one b

/-- Bit 7 is the quotient by 128, because a byte is less than 256 (R164). -/
theorem toNat_bitOutLeft (b : Byte) : (bitOutLeft b).toNat = b.toNat / 128 := by
  have hb : b.toNat < 256 := b.isLt
  rw [bitOutLeft, toNat_byte_and_one, BitVec.toNat_ushiftRight, Nat.shiftRight_eq_div_pow]
  omega

/-! ### The difference and the shifts as numbers -/

/-- The difference of two bytes is the one of the integers, modulo 256 (R150). -/
theorem toNat_byte_sub (a b : Byte) : ((a - b).toNat : Int) = (a.toNat - b.toNat : Int) % 256 := by
  have ha : a.toNat < 256 := a.isLt
  have hb : b.toNat < 256 := b.isLt
  rw [BitVec.toNat_sub]
  omega

theorem toNat_byte_shiftRight_one (b : Byte) : (b >>> 1).toNat = b.toNat / 2 := by
  rw [BitVec.toNat_ushiftRight, Nat.shiftRight_one]

theorem toNat_byte_shiftLeft_one (b : Byte) : (b <<< 1).toNat = b.toNat * 2 % 256 := by
  rw [BitVec.toNat_shiftLeft, Nat.shiftLeft_eq]

/-! ### A result and its flag in the registers -/

/-- VF holds the flag, also when x = F (R151). -/
theorem State.reg_setResultFlag_vf (r f : Byte) : (s.setResultFlag x r f).reg 0xF = f :=
  State.reg_setReg_self _ vfNum f

theorem State.reg_setResultFlag_of_ne_vf (r f : Byte) (hx : x ≠ 0xF) : (s.setResultFlag x r f).reg x = r :=
  (State.reg_setReg_ne _ f hx).trans (State.reg_setReg_self s x r)

theorem State.reg_setResultFlag_other (r f : Byte) (hq : q ≠ x) (hf : q ≠ 0xF) :
    (s.setResultFlag x r f).reg q = s.reg q :=
  (State.reg_setReg_ne _ f hf).trans (State.reg_setReg_ne s r hq)

/-- A write of one register reaches VF only where x names it (R22). -/
theorem State.reg_vf_setReg (b : Byte) (hx : x ≠ 0xF) : (s.setReg x b).reg 0xF = s.reg 0xF :=
  State.reg_setReg_ne s b hx.symm

theorem State.reg_setRandom (kk r : Byte) : (s.setRandom x kk r).reg q = (s.setReg x (r &&& kk)).reg q :=
  State.reg_congr (s.setRandom_v x kk r) q

end Sys2Proof.Machine

open Sys2Proof Sys2Proof.Machine

/-- Settles O25: addition of bytes is addition modulo 256, and the carry compares the sum that is not reduced. -/
theorem addSetsCarry : Obligations.AddSetsCarry := by
  refine fun x y s => ⟨decodeWord_encode (.addReg x y),
    s.setResultFlag x (s.reg x + s.reg y) (carry (s.reg x) (s.reg y)), rfl, fun hx => ?_, ?_, rfl⟩
  · rw [s.reg_setResultFlag_of_ne_vf _ _ hx, BitVec.toNat_add]
  · rw [s.reg_setResultFlag_vf, toNat_carry]

/-- Settles O26: one subtraction with its operands in the two orders. -/
theorem subtractsSetNoBorrow : Obligations.SubtractsSetNoBorrow := by
  refine fun x y s => ⟨decodeWord_encode (.subReg x y), decodeWord_encode (.subnReg x y), ?_, ?_⟩
  · refine ⟨s.setResultFlag x (s.reg x - s.reg y) (noBorrow (s.reg x) (s.reg y)), rfl, fun hx => ?_, ?_, rfl⟩
    · rw [s.reg_setResultFlag_of_ne_vf _ _ hx, toNat_byte_sub]
    · rw [s.reg_setResultFlag_vf, toNat_noBorrow]
  · refine ⟨s.setResultFlag x (s.reg y - s.reg x) (noBorrow (s.reg y) (s.reg x)), rfl, fun hx => ?_, ?_, rfl⟩
    · rw [s.reg_setResultFlag_of_ne_vf _ _ hx, toNat_byte_sub]
    · rw [s.reg_setResultFlag_vf, toNat_noBorrow]

/-- Settles O27: the shifts are a division by 2 and a doubling of Vy, and Vy is written only as Vx or as VF. -/
theorem shiftsTakeVy : Obligations.ShiftsTakeVy := by
  refine fun x y s => ⟨decodeWord_encode (.shrReg x y), decodeWord_encode (.shlReg x y), ?_, ?_⟩
  · refine ⟨s.setResultFlag x (s.reg y >>> 1) (bitOutRight (s.reg y)), rfl, fun hx => ?_, ?_,
      s.reg_setResultFlag_other _ _, rfl⟩
    · rw [s.reg_setResultFlag_of_ne_vf _ _ hx, toNat_byte_shiftRight_one]
    · rw [s.reg_setResultFlag_vf, toNat_bitOutRight]
  · refine ⟨s.setResultFlag x (s.reg y <<< 1) (bitOutLeft (s.reg y)), rfl, fun hx => ?_, ?_,
      s.reg_setResultFlag_other _ _, rfl⟩
    · rw [s.reg_setResultFlag_of_ne_vf _ _ hx, toNat_byte_shiftLeft_one]
    · rw [s.reg_setResultFlag_vf, toNat_bitOutLeft]

/-- Settles O23: each of the three writes Vx alone. -/
theorem loadsAndImmediateAdd : Obligations.LoadsAndImmediateAdd := by
  refine fun x y kk s => ⟨decodeWord_encode (.ldImm x kk), decodeWord_encode (.addImm x kk),
    decodeWord_encode (.ldReg x y), ?_, ?_, ?_⟩
  · exact ⟨s.setReg x kk, rfl, s.reg_setReg_self x kk, s.reg_vf_setReg kk, rfl⟩
  · refine ⟨s.setReg x (s.reg x + kk), rfl, ?_, s.reg_vf_setReg _, rfl⟩
    rw [s.reg_setReg_self, BitVec.toNat_add]
  · exact ⟨s.setReg x (s.reg y), rfl, s.reg_setReg_self x _, s.reg_vf_setReg _, rfl⟩

/-- Settles O24: each of the three writes its result and then the flag 0. -/
theorem logicClearsVF : Obligations.LogicClearsVF := by
  refine fun x y s => ⟨decodeWord_encode (.orReg x y), decodeWord_encode (.andReg x y),
    decodeWord_encode (.xorReg x y), ?_, ?_, ?_⟩
  · exact ⟨s.setResultFlag x (s.reg x ||| s.reg y) 0, rfl, s.reg_setResultFlag_of_ne_vf _ _,
      s.reg_setResultFlag_vf _ _, rfl⟩
  · exact ⟨s.setResultFlag x (s.reg x &&& s.reg y) 0, rfl, s.reg_setResultFlag_of_ne_vf _ _,
      s.reg_setResultFlag_vf _ _, rfl⟩
  · exact ⟨s.setResultFlag x (s.reg x ^^^ s.reg y) 0, rfl, s.reg_setResultFlag_of_ne_vf _ _,
      s.reg_setResultFlag_vf _ _, rfl⟩

/-- Settles O28: whatever byte is drawn, a bit that is 0 in kk is 0 in the conjunction. -/
theorem randomByteIsMasked : Obligations.RandomByteIsMasked := by
  intro x kk s
  have hx : (s.setRandom x kk (Config.rand s.draws)).reg x = Config.rand s.draws &&& kk :=
    (s.reg_setRandom kk _).trans (s.reg_setReg_self x _)
  refine ⟨decodeWord_encode (.rnd x kk), s.setRandom x kk (Config.rand s.draws), rfl, hx, rfl, fun b hb => ?_,
    fun hvf => ?_⟩
  · rw [hx, BitVec.getLsbD_and, hb, Bool.and_false]
  · exact (s.reg_setRandom kk _).trans (s.reg_vf_setReg _ hvf)
end

section
/-! PROOFS. The index register and memory (spec/43_index_memory.md): the addresses an instruction puts in I, the bytes
read back after a store and the registers after a load, and the accesses that run past the end of memory or into the
font. -/

namespace Sys2Proof.Machine

variable {s : State} {x y n r : Nibble}

/-! ### Values of I -/

theorem effAddr_zero (s : State) : effAddr s 0 = s.i.toNat := rfl

/-- The low nibble is the remainder of the division by 16, and 15 * 5 fits (R187). -/
theorem toNat_glyphAddr (b : Byte) : (glyphAddr b).toNat = b.toNat % 16 * 5 := by
  have hlow : (b &&& 0x0F).toNat = b.toNat % 16 := Nat.and_two_pow_sub_one_eq_mod b.toNat 4
  rw [glyphAddr, BitVec.toNat_mul, BitVec.toNat_setWidth_of_le (by decide), hlow]
  exact Nat.mod_eq_of_lt (show b.toNat % 16 * 5 < 2 ^ 16 by omega)

/-- I is a number modulo 65536 (R31, R186). -/
theorem toNat_addToI_i (s : State) (b : Byte) :
    (s.addToI (b.setWidth 16)).i.toNat = (s.i.toNat + b.toNat) % 65536 := by
  rw [State.addToI_i, BitVec.toNat_add, BitVec.toNat_setWidth_of_le (by decide)]

/-- Past a block of backed bytes I does not wrap (R190, R191). -/
theorem toNat_i_past_block {k : Nat} (h : s.i.toNat + k ≤ 4096) :
    (s.i + BitVec.ofNat 16 k).toNat = s.i.toNat + k := by
  have hk : (BitVec.ofNat 16 k).toNat = k := by rw [BitVec.toNat_ofNat, Nat.mod_eq_of_lt (by omega)]
  rw [BitVec.toNat_add_of_lt (by omega), hk]

/-! ### Bytes after a store -/

/-- Each byte of a stored list is read back at its place. -/
theorem State.byteAt_writeList_getElem {a k : Nat} {b : Byte} {bs : List Byte} (h : bs[k]? = some b) :
    State.byteAt { s with mem := Memory.writeList s.font s.mem a bs } (a + k) = b := by
  rw [State.byteAt_writeList, if_pos (Nat.le_add_right a k), Nat.add_sub_cancel_left, h, Option.getD_some]

/-- V0, V1, ... one after the other: the entry numbered like a register is the register's value (R190). -/
theorem State.getElem?_regsFrom_zero (hr : r ≤ x) : (s.regsFrom 0 (x.toNat + 1))[r.toNat]? = some (s.reg r) := by
  rw [State.getElem?_regsFrom s _ 0 r.toNat (Nat.lt_succ_of_le hr), Nat.zero_add, BitVec.ofNat_toNat,
    BitVec.setWidth_eq]

/-! ### Registers after a load -/

/-- Loading V0..Vx from memory: each of them holds its byte, the others keep their value (R191, R120). -/
theorem State.reg_setRegsFrom_bytesFrom (s : State) (a : Nat) (x r : Nibble) :
    (s.setRegsFrom 0 (s.bytesFrom a (x.toNat + 1))).reg r = if r ≤ x then s.byteAt (a + r.toNat) else s.reg r := by
  have hlen := s.length_bytesFrom (x.toNat + 1) a
  split
  case isTrue hr =>
    have hx : x.toNat < 16 := x.isLt
    have h := State.reg_setRegsFrom (s.bytesFrom a (x.toNat + 1)) s 0 r.toNat (by omega) r.isLt
    rw [BitVec.ofNat_toNat, BitVec.setWidth_eq] at h
    rw [h, if_pos (Nat.zero_le _), Nat.sub_zero, State.getElem?_bytesFrom s _ a r.toNat (Nat.lt_succ_of_le hr),
      Option.getD_some]
  case isFalse hr => exact reg_setRegsFrom_above s hr hlen

/-! ### The memory instructions that complete -/

/-- The state after bytes are stored from I up (R67). -/
abbrev State.stored (s : State) (bs : List Byte) : State :=
  { s with mem := Memory.writeList s.font s.mem s.i.toNat bs }

theorem exec_ldB_of_backed (hlen : s.i.toNat + 3 ≤ 4096) (hpolicy : 0x04F < s.i.toNat ∨ s.fontWrite = .store) :
    exec (.ldB x) s = .next (s.stored (decimalDigits (s.reg x))) := by
  rw [exec, execLdB, effAddr_zero, writeBytes_ok _ s _ hlen hpolicy, complete_ok]

theorem exec_stRegs_of_backed (hlen : s.i.toNat + (x.toNat + 1) ≤ 4096)
    (hpolicy : 0x04F < s.i.toNat ∨ s.fontWrite = .store) :
    exec (.stRegs x) s =
      .next ((s.stored (s.regsFrom 0 (x.toNat + 1))).addToI (BitVec.ofNat 16 (x.toNat + 1))) := by
  rw [exec, execStRegs, effAddr_zero, writeBytes_ok _ s _ (by rwa [State.length_regsFrom]) hpolicy, Except.map,
    complete_ok]

theorem exec_ldRegs_of_backed (hlen : s.i.toNat + (x.toNat + 1) ≤ 4096) :
    exec (.ldRegs x) s = .next ((s.setRegsFrom 0 (s.bytesFrom s.i.toNat (x.toNat + 1))).addToI
      (BitVec.ofNat 16 (x.toNat + 1))) := by
  rw [exec, execLdRegs, effAddr_zero, readBytes_ok s _ _ hlen, Except.map, complete_ok]

/-! ### The accesses that stop -/

/-- The state before the cycle with AddressOutOfRange of the first address from I up that is not backed (R62, R63,
R112). -/
abbrev State.outOfRangeAtI (s : State) : State :=
  { s with pc := s.pc - 2, halted := some (.addressOutOfRange (max s.i.toNat 4096)) }

/-- At most 16 bytes are stored, so a store that ends past 4095 starts above the font (R180). -/
theorem writeBytes_past_end {bs : List Byte} (hne : bs ≠ []) (hfew : bs.length ≤ 16)
    (h : 4096 < s.i.toNat + bs.length) :
    writeBytes s s.i.toNat bs = .error (.raised (.addressOutOfRange (max s.i.toNat 4096))) :=
  writeBytes_outOfRange bs s _ hne h (.inl (by omega))

theorem exec_ldB_past_end (h : 4096 < s.i.toNat + 3) : exec (.ldB x) s = .next s.outOfRangeAtI := by
  have hlen : (decimalDigits (s.reg x)).length = 3 := rfl
  rw [exec, execLdB, effAddr_zero, writeBytes_past_end (decimalDigits_ne_nil _) (by omega) (by omega),
    complete_raised]

theorem exec_stRegs_past_end (h : 4096 < s.i.toNat + (x.toNat + 1)) :
    exec (.stRegs x) s = .next s.outOfRangeAtI := by
  have hlen := s.length_regsFrom (x.toNat + 1) 0
  have hx : x.toNat < 16 := x.isLt
  rw [exec, execStRegs, effAddr_zero, writeBytes_past_end (s.regsFrom_succ_ne_nil 0 _) (by omega) (by omega),
    Except.map, complete_raised]

theorem exec_ldRegs_past_end (h : 4096 < s.i.toNat + (x.toNat + 1)) :
    exec (.ldRegs x) s = .next s.outOfRangeAtI := by
  rw [exec, execLdRegs, effAddr_zero, readBytes_outOfRange s _ _ (Nat.succ_pos _) h, Except.map, complete_raised]

/-- A blocked draw reads no byte, so the lock has to be open (R205). -/
theorem exec_drw_past_end (hopen : s.vblank = false) (hn : 0 < n.toNat) (h : 4096 < s.i.toNat + n.toNat) :
    exec (.drw x y n) s = .next s.outOfRangeAtI := by
  rw [exec, execDrw, hopen, if_neg Bool.false_ne_true, effAddr_zero, readBytes_outOfRange s _ _ hn h, Except.map,
    complete_raised]

theorem exec_ldB_refused (hfont : s.i.toNat ≤ 0x04F) (hrefuse : s.fontWrite = .refuse) :
    exec (.ldB x) s = .refused (.fontWrite s.i.toNat) := by
  rw [exec, execLdB, effAddr_zero, writeBytes_font s (decimalDigits_ne_nil _) hfont hrefuse, complete_refused]

theorem exec_stRegs_refused (hfont : s.i.toNat ≤ 0x04F) (hrefuse : s.fontWrite = .refuse) :
    exec (.stRegs x) s = .refused (.fontWrite s.i.toNat) := by
  rw [exec, execStRegs, effAddr_zero, writeBytes_font s (s.regsFrom_succ_ne_nil 0 _) hfont hrefuse, Except.map,
    complete_refused]

end Sys2Proof.Machine

open Sys2Proof Sys2Proof.Machine

/-- Settles O33: the accesses past the end stop at the first address not backed, the stores in the font at I. -/
theorem accessesThatStop : Obligations.AccessesThatStop :=
  fun _ _ _ _ => ⟨exec_ldB_past_end, exec_stRegs_past_end, exec_ldRegs_past_end, exec_drw_past_end,
    fun hfont hrefuse => ⟨exec_ldB_refused hfont hrefuse, exec_stRegs_refused hfont hrefuse⟩⟩

/-- Settles O29: each of the three writes I alone. -/
theorem indexRegisterWrites : Obligations.IndexRegisterWrites := by
  refine fun nnn x s => ⟨decodeWord_encode (.ldI nnn), decodeWord_encode (.addI x), decodeWord_encode (.ldF x),
    ?_, ?_, ?_⟩
  · exact ⟨{ s with i := absTarget nnn }, rfl, toNat_absTarget nnn, rfl, rfl⟩
  · exact ⟨s.addToI ((s.reg x).setWidth 16), rfl, toNat_addToI_i s (s.reg x), rfl, rfl⟩
  · exact ⟨{ s with i := glyphAddr (s.reg x) }, rfl, toNat_glyphAddr (s.reg x), rfl, rfl⟩

/-- Settles O30: the stored list is the three digits, and the frame of memory gives the other bytes. -/
theorem decimalDigitsStored : Obligations.DecimalDigitsStored := by
  refine fun x s => ⟨decodeWord_encode (.ldB x), fun hlen hpolicy => ?_⟩
  have hexec := exec_ldB_of_backed (x := x) hlen hpolicy
  have hVx : (s.reg x).toNat < 256 := (s.reg x).isLt
  have hdigit (k : Nat) {d : Nat} (hd : d < 256) (h : (decimalDigits (s.reg x))[k]? = some (BitVec.ofNat 8 d)) :
      ((s.stored (decimalDigits (s.reg x))).byteAt (s.i.toNat + k)).toNat = d := by
    rw [State.byteAt_writeList_getElem h, BitVec.toNat_ofNat, Nat.mod_eq_of_lt hd]
  exact ⟨_, hexec, hdigit 0 (by omega) rfl, hdigit 1 (by omega) rfl, hdigit 2 (by omega) rfl, rfl, rfl,
    fun _ ha => exec_byteAt_outside hexec ha⟩

/-- Settles O31: the stored list holds the registers in order, and the frame of memory gives the other bytes. -/
theorem registersStored : Obligations.RegistersStored := by
  refine fun x s => ⟨decodeWord_encode (.stRegs x), fun hlen hpolicy => ?_⟩
  have hexec := exec_stRegs_of_backed hlen hpolicy
  exact ⟨_, hexec, fun r hr => State.byteAt_writeList_getElem (State.getElem?_regsFrom_zero hr),
    toNat_i_past_block hlen, rfl, rfl, fun _ ha => exec_byteAt_outside hexec ha⟩

/-- Settles O32: the load reads the font like any other byte, and writes the register file and I alone. -/
theorem registersLoaded : Obligations.RegistersLoaded := by
  refine fun x s => ⟨decodeWord_encode (.ldRegs x), fun hlen => ?_⟩
  rw [exec_ldRegs_of_backed hlen, State.setRegsFrom_eq]
  exact ⟨_, rfl, State.reg_setRegsFrom_bytesFrom s s.i.toNat x, toNat_i_past_block hlen, rfl, rfl⟩
end

section
/-! PROOFS. The display (spec/44_display.md): the loops of draw_sprite lay the wrapped sprite over the pixels bit by bit,
a draw or its rollback, the draw lock between two ticks, and the linear buffer. -/

namespace Sys2Proof.Machine

variable {x y c n px py : Nat} {row : Byte} {rows : List Byte} {bit bit₁ bit₂ : Nat → Nat → Bool}
  {a b d : Bool × Grid}

/-! ### Bits laid over the pixels -/

/-- From `a` to `b`, each a pair (collided, display), the bits `bit px py` are XORed over the pixels, and a pixel that
is on under a bit of 1 sets the collision (R203, R206). -/
structure Overlays (bit : Nat → Nat → Bool) (a b : Bool × Grid) : Prop where
  pixel : ∀ px py, Grid.get b.2 px py = (Grid.get a.2 px py ^^ bit px py)
  collided : b.1 = true ↔ a.1 = true ∨ ∃ px py, px < 64 ∧ py < 32 ∧ Grid.get a.2 px py = true ∧ bit px py = true

theorem Overlays.refl (h : ∀ px py, bit px py = false) (a : Bool × Grid) : Overlays bit a a where
  pixel px py := by simp [h]
  collided := by simp [h]

/-- Two overlays that share no pixel are one: where the second has a bit of 1, the first has left the pixel alone. -/
theorem Overlays.trans (hab : Overlays bit₁ a b) (hbd : Overlays bit₂ b d)
    (hdisjoint : ∀ px py, bit₂ px py = true → bit₁ px py = false) :
    Overlays (fun px py => bit₁ px py || bit₂ px py) a d where
  pixel px py := by
    rw [hbd.pixel, hab.pixel, Bool.xor_assoc]
    cases h : bit₂ px py
    · simp
    · simp [hdisjoint px py h]
  collided := by
    have hsame (px py : Nat) (h : bit₂ px py = true) : Grid.get b.2 px py = Grid.get a.2 px py := by
      rw [hab.pixel, hdisjoint px py h, Bool.xor_false]
    rw [hbd.collided, hab.collided, or_assoc]
    refine or_congr_right ⟨?_, ?_⟩
    · rintro (⟨px, py, hx, hy, hon, hbit⟩ | ⟨px, py, hx, hy, hon, hbit⟩)
      · exact ⟨px, py, hx, hy, hon, by rw [hbit, Bool.true_or]⟩
      · exact ⟨px, py, hx, hy, hsame px py hbit ▸ hon, by rw [hbit, Bool.or_true]⟩
    · rintro ⟨px, py, hx, hy, hon, hbit⟩
      rcases Bool.or_eq_true_iff.mp hbit with hbit | hbit
      · exact .inl ⟨px, py, hx, hy, hon, hbit⟩
      · exact .inr ⟨px, py, hx, hy, (hsame px py hbit).trans hon, hbit⟩

theorem Overlays.congr (h : Overlays bit₁ a b) (hbit : ∀ px py, bit₁ px py = bit₂ px py) : Overlays bit₂ a b :=
  (funext₂ hbit : bit₁ = bit₂) ▸ h

/-- One sprite bit is laid over the one pixel its coordinates reduce to. -/
theorem drawBit_overlays (on : Bool) (px py : Nat) (a : Bool × Grid) :
    Overlays (fun qx qy => on && decide (qx % 64 = px % 64 ∧ qy % 32 = py % 32)) a (drawBit on px py a) where
  pixel qx qy := get_drawBit on px py qx qy a
  collided := by
    cases on
    case false => simp
    case true =>
      rw [drawBit_true, Bool.or_eq_true_iff]
      refine or_congr_right ⟨fun hon => ?_, ?_⟩
      · exact ⟨px % 64, py % 32, Nat.mod_lt _ (by decide), Nat.mod_lt _ (by decide), by rwa [Grid.get_mod], by simp⟩
      · rintro ⟨qx, qy, hx, hy, hon, hbit⟩
        simp only [Bool.true_and, decide_eq_true_eq, Nat.mod_eq_of_lt hx, Nat.mod_eq_of_lt hy] at hbit
        rwa [hbit.1, hbit.2, Grid.get_mod] at hon

/-! ### The loops over columns and rows -/

theorem colOffset_eq_iff (hc : c < 64) : colOffset x px = c ↔ px % 64 = (x + c) % 64 := by
  unfold colOffset
  omega

theorem rowOffset_eq_iff {k : Nat} (hk : k < 32) : rowOffset y py = k ↔ py % 32 = (y + k) % 32 := by
  unfold rowOffset
  omega

/-- A pixel that is not in row `y` lies one row less below row `y + 1`. -/
theorem rowOffset_of_ne_zero (h : rowOffset y py ≠ 0) : rowOffset y py = rowOffset (y + 1) py + 1 := by
  unfold rowOffset at *
  omega

/-- The bit that the columns `c` to `c + n - 1` of a sprite row drawn at (x, y) lay over a pixel. -/
def columnsBit (row : Byte) (x y c n px py : Nat) : Bool :=
  decide (rowOffset y py = 0 ∧ c ≤ colOffset x px ∧ colOffset x px < c + n) && row.getLsbD (7 - colOffset x px)

theorem columnsBit_eq_true_iff : columnsBit row x y c n px py = true ↔
    (rowOffset y py = 0 ∧ c ≤ colOffset x px ∧ colOffset x px < c + n) ∧ row.getLsbD (7 - colOffset x px) = true := by
  rw [columnsBit, Bool.and_eq_true, decide_eq_true_eq]

/-- The first of the columns, and the columns after it. -/
theorem columnsBit_succ (hc : c < 64) : columnsBit row x y c (n + 1) px py =
    (row.getLsbD (7 - c) && decide (px % 64 = (x + c) % 64 ∧ py % 32 = y % 32) ||
      columnsBit row x y (c + 1) n px py) := by
  have hrow : rowOffset y py = 0 ↔ py % 32 = y % 32 := rowOffset_eq_iff (by decide)
  simp only [← colOffset_eq_iff hc, ← hrow]
  by_cases hfirst : colOffset x px = c
  · simp [columnsBit, hfirst, Bool.and_comm]
  · have hrange : c ≤ colOffset x px ∧ colOffset x px < c + (n + 1) ↔
        c + 1 ≤ colOffset x px ∧ colOffset x px < c + 1 + n := by omega
    simp [columnsBit, hfirst, hrange]

/-- The loop over the columns of a row (R203). -/
theorem drawColumns_overlays (row : Byte) (x y : Nat) : ∀ (n c : Nat) (a : Bool × Grid), c + n ≤ 64 →
    Overlays (columnsBit row x y c n) a (drawColumns row x y c n a)
  | 0, c, a, _ => .refl (fun px py => by simp [columnsBit]) a
  | n + 1, c, a, h => by
    have hfirst := drawBit_overlays (row.getLsbD (7 - c)) (x + c) y a
    have hrest := drawColumns_overlays row x y n (c + 1) (drawBit (row.getLsbD (7 - c)) (x + c) y a) (by omega)
    refine (hfirst.trans hrest fun px py hbit => ?_).congr fun px py => (columnsBit_succ (by omega)).symm
    obtain ⟨⟨-, hlater, -⟩, -⟩ := columnsBit_eq_true_iff.mp hbit
    have hcol : ¬ px % 64 = (x + c) % 64 := by
      rw [← colOffset_eq_iff (by omega)]
      omega
    simp [hcol]

theorem spriteBit_eq_true_iff : spriteBit x y rows px py = true ↔
    ∃ row, rows[rowOffset y py]? = some row ∧ colOffset x px < 8 ∧ row.getLsbD (7 - colOffset x px) = true := by
  unfold spriteBit
  split
  case h_1 hnone => simp [hnone]
  case h_2 row hrow => simp [hrow]

theorem spriteBit_nil (x y px py : Nat) : spriteBit x y [] px py = false := rfl

/-- A sprite of at most 32 rows ends before it would meet its own first row again (R204). -/
theorem spriteBit_succ_of_zero (h : rows.length < 32) (hzero : rowOffset y py = 0) :
    spriteBit x (y + 1) rows px py = false := by
  have hrow : py % 32 = (y + 0) % 32 := (rowOffset_eq_iff (by decide)).mp hzero
  have hlast : rowOffset (y + 1) py = 31 := (rowOffset_eq_iff (by decide)).mpr (by omega)
  rw [spriteBit, hlast, List.getElem?_eq_none (by omega)]

/-- The first row of a sprite, and the rows after it, which are drawn one row below. -/
theorem spriteBit_cons (h : rows.length < 32) : spriteBit x y (row :: rows) px py =
    (columnsBit row x y 0 8 px py || spriteBit x (y + 1) rows px py) := by
  by_cases hzero : rowOffset y py = 0
  · rw [spriteBit_succ_of_zero h hzero]
    simp [spriteBit, columnsBit, hzero]
  · have hnot : columnsBit row x y 0 8 px py = false := by simp [columnsBit, hzero]
    rw [hnot, Bool.false_or, spriteBit, spriteBit, rowOffset_of_ne_zero hzero, List.getElem?_cons_succ]

/-- The loop over the rows of a sprite (R203, R204). -/
theorem drawRows_overlays (x : Nat) : ∀ (rows : List Byte) (y : Nat) (a : Bool × Grid), rows.length ≤ 32 →
    Overlays (spriteBit x y rows) a (drawRows x y rows a)
  | [], y, a, _ => .refl (spriteBit_nil x y) a
  | row :: rows, y, a, h => by
    have hlen : rows.length < 32 := h
    have hfirst := drawColumns_overlays row x y 8 0 a (by decide)
    have hrest := drawRows_overlays x rows (y + 1) (drawColumns row x y 0 8 a) hlen.le
    refine (hfirst.trans hrest fun px py hbit => ?_).congr fun px py => (spriteBit_cons hlen).symm
    refine Bool.eq_false_iff.mpr fun hboth => ?_
    obtain ⟨⟨hzero, -⟩, -⟩ := columnsBit_eq_true_iff.mp hboth
    simp [spriteBit_succ_of_zero hlen hzero] at hbit

/-- draw_sprite lays the sprite's bits over the display, the collision signal being off before (R203, R204, R206). -/
theorem drawSprite_overlays (g : Grid) (x y : Nat) (h : rows.length ≤ 32) :
    Overlays (spriteBit x y rows) (false, g) (drawSprite g x y rows) :=
  drawRows_overlays x rows y (false, g) h

/-- A sprite has a bit of 1 over some pixel of the grid exactly when some row is not zero. -/
theorem exists_spriteBit_iff (x y : Nat) (h : rows.length ≤ 32) :
    (∃ px py, px < 64 ∧ py < 32 ∧ spriteBit x y rows px py = true) ↔ ∃ row ∈ rows, row ≠ 0 := by
  constructor
  · rintro ⟨px, py, -, -, hbit⟩
    obtain ⟨row, hrow, -, hbit⟩ := spriteBit_eq_true_iff.mp hbit
    exact ⟨row, List.mem_of_getElem? hrow, by rintro rfl; simp at hbit⟩
  · rintro ⟨row, hrow, hne⟩
    obtain ⟨k, hk, rfl⟩ := List.mem_iff_getElem.mp hrow
    obtain ⟨j, hbit⟩ : ∃ j, rows[k].getLsbD j = true := by
      by_contra hnone
      exact hne (BitVec.eq_of_getLsbD_eq fun j _ => by simpa using fun hj => hnone ⟨j, hj⟩)
    have hj : j < 8 := BitVec.lt_of_getLsbD hbit
    have hcol : colOffset x ((x + (7 - j)) % 64) = 7 - j := (colOffset_eq_iff (by omega)).mpr (Nat.mod_mod _ _)
    have hpos : rowOffset y ((y + k) % 32) = k := (rowOffset_eq_iff (by omega)).mpr (Nat.mod_mod _ _)
    refine ⟨(x + (7 - j)) % 64, (y + k) % 32, Nat.mod_lt _ (by decide), Nat.mod_lt _ (by decide),
      spriteBit_eq_true_iff.mpr ⟨rows[k], ?_, by omega, ?_⟩⟩
    · rw [hpos, List.getElem?_eq_getElem hk]
    · rwa [hcol, show 7 - (7 - j) = j by omega]

/-! ### Dxyn -/

section Draw

variable {s t : State} {x y n : Nibble} {i : Instr} {tr : Transaction}

theorem exec_drw_of_open (hopen : s.vblank = false) (hbacked : n.toNat = 0 ∨ s.i.toNat + n.toNat ≤ 4096) :
    exec (.drw x y n) s = .next (s.withSprite x y (s.bytesFrom s.i.toNat n.toNat)) := by
  have hread : readBytes s s.i.toNat n.toNat = .ok (s.bytesFrom s.i.toNat n.toNat) := by
    rcases readBytes_cases s s.i.toNat n.toNat with ⟨hok, -⟩ | ⟨-, hpos, hpast⟩
    · exact hok
    · omega
  rw [exec, execDrw, hopen, if_neg Bool.false_ne_true, effAddr_zero, hread, Except.map, complete_ok]

theorem exec_drw_of_locked (hlocked : s.vblank = true) : exec (.drw x y n) s = .next { s with pc := s.pc - 2 } := by
  rw [exec, execDrw, if_pos hlocked, State.rollback]

theorem State.reg_vf_withSprite (s : State) (x y : Nibble) (rows : List Byte) :
    (s.withSprite x y rows).reg 0xF = flagByte (drawSprite s.pix (s.reg x).toNat (s.reg y).toNat rows).1 :=
  s.reg_setReg_self vfNum _

/-! ### The draw lock -/

/-- What a transaction from `s` to `t` does to the lock and the draw signal: it draws, which takes an open lock and sets
it; or it leaves the lock as it is, and gives no draw signal if it is a cycle (R205, R207). -/
def LockStep (tr : Transaction) (s t : State) : Prop :=
  (s.vblank = false ∧ t.vblank = true) ∨ (t.vblank = s.vblank ∧ (tr = .cycle → t.drew = false))

/-- Dxyn is the one instruction that writes the lock or the draw signal. -/
theorem exec_lock (h : exec i s = .next t) :
    (s.vblank = false ∧ t.vblank = true) ∨ (t.vblank = s.vblank ∧ t.drew = s.drew) := by
  cases i with
  | drw x y n =>
    rcases execDrw_cases h with ⟨-, rfl⟩ | ⟨hopen, -, rfl⟩ | ⟨-, -, rfl⟩
    · exact .inr ⟨rfl, rfl⟩
    · exact .inl ⟨hopen, rfl⟩
    · exact .inr ⟨rfl, rfl⟩
  | _ =>
    have hframe := exec_frame h
    exact .inr ⟨hframe.part .vblank (by simp [writesPart]), hframe.part .drew (by simp [writesPart])⟩

theorem cycle_lockStep (h : cycle s = .next t) : LockStep .cycle s t := by
  rcases cycle_cases h with ⟨e, rfl⟩ | ⟨-, i, -, hexec⟩
  · exact .inr ⟨rfl, fun _ => rfl⟩
  · exact (exec_lock hexec).imp_right fun ⟨hlock, hdrew⟩ => ⟨hlock, fun _ => hdrew⟩

/-- Only a tick and a reset open the lock (R40, R240). -/
theorem perform_lockStep (h : perform tr s = .next t) (htick : tr ≠ .tickTimers) (hreset : tr ≠ .reset) :
    LockStep tr s t := by
  rcases perform_cases h with ⟨rfl, -⟩ | ⟨-, hact⟩
  · exact absurd rfl hreset
  · cases tr with
    | cycle => exact cycle_lockStep hact
    | tickTimers => exact absurd rfl htick
    | reset => exact absurd rfl hreset
    | load rom =>
      rcases loadRom_cases s rom with ⟨-, hload⟩ | ⟨-, hload⟩ <;> cases hload.symm.trans hact <;>
        exact .inr ⟨rfl, nofun⟩
    | setKey _ _ | setPixel _ _ _ => cases hact; exact .inr ⟨rfl, nofun⟩

theorem perform_schedule (h : perform tr s = .next t) : t.schedule = s.schedule := by
  have hkeep : perform tr s = mapNext (·.withSchedule s.schedule) (perform tr s) := perform_withSchedule tr s s.schedule
  rw [h, mapNext, Host.Outcome.next.injEq] at hkeep
  rw [hkeep]

/-- The transaction a step performs (R71). -/
abbrev State.nextTransaction (s : State) : Transaction := s.schedule.head?.getD .cycle

theorem nextTransaction_of_noTick {n : Nat} (h : noTickWithin (n + 1) s) :
    s.nextTransaction ≠ .tickTimers ∧ s.nextTransaction ≠ .reset := by
  cases hs : s.schedule with
  | nil => simp [State.nextTransaction, hs]
  | cons tr rest =>
    have htr := h tr (by simp [hs])
    simpa [State.nextTransaction, hs] using htr

theorem noTickWithin_tail {n : Nat} (h : noTickWithin (n + 1) s) (ht : t.schedule = s.schedule.tail) :
    noTickWithin n t := by
  intro tr htr
  refine h tr ?_
  cases hs : s.schedule with
  | nil => simp [ht, hs] at htr
  | cons first rest =>
    rw [List.take_succ_cons]
    exact List.mem_cons_of_mem _ (by simpa [ht, hs] using htr)

theorem drawsWithin_succ {n : Nat} (h : step s = .next t) : drawsWithin (n + 1) s =
    (if s.nextTransaction = .cycle ∧ t.drew = true then 1 else 0) + drawsWithin n t := by
  rw [drawsWithin, h]

/-- No draw while the lock is set, and one that sets it while it is open (R207). -/
theorem drawsWithin_add_lock_le : ∀ (n : Nat) (s : State), noTickWithin n s → drawsWithin n s + s.vblank.toNat ≤ 1
  | 0, s, _ => by simpa [drawsWithin] using s.vblank.toNat_le
  | n + 1, s, h => by
    obtain ⟨htick, hreset⟩ := nextTransaction_of_noTick h
    cases hstep : step s with
    | fault _ | refused _ => simpa [drawsWithin, hstep] using s.vblank.toNat_le
    | next t =>
      rw [drawsWithin_succ hstep]
      rw [step_eq_perform] at hstep
      have hrest := drawsWithin_add_lock_le n t (noTickWithin_tail h (perform_schedule hstep))
      rcases perform_lockStep hstep htick hreset with ⟨hopen, hset⟩ | ⟨hlock, hdrew⟩
      · rw [hset, Bool.toNat_true] at hrest
        rw [hopen, Bool.toNat_false]
        split <;> omega
      · rw [hlock] at hrest
        have hnone : ¬ (s.nextTransaction = .cycle ∧ t.drew = true) := fun ⟨hcycle, hdraw⟩ => by
          simp [hdrew hcycle] at hdraw
        simpa [hnone] using hrest

end Draw

/-! ### The linear buffer -/

theorem linearBuffer_eq_flatten (s : State) : linearBuffer s = s.pix.flatten.toList :=
  calc linearBuffer s
    _ = (s.pix.toArray.toList.map (Array.toList ∘ Vector.toArray)).flatten := rfl
    _ = s.pix.flatten.toList := by simp [Vector.flatten]

end Sys2Proof.Machine

open Sys2Proof Sys2Proof.Machine

/-- Settles O36: the loops over rows and columns lay the sprite's bits over the display, each bit on a pixel of its own. -/
theorem spriteClosedForm : Obligations.SpriteClosedForm := by
  intro g x y rows h
  have hdraw := drawSprite_overlays g x y h
  exact ⟨hdraw.pixel, by simpa using hdraw.collided⟩

/-- Settles O37: a bit XORed twice leaves the pixel, and after a draw on a blank display the pixels are the sprite's own
bits. -/
theorem drawTwiceRestores : Obligations.DrawTwiceRestores := by
  intro g x y rows h
  constructor
  · refine Grid.ext_get fun px py _ _ => ?_
    rw [(drawSprite_overlays _ x y h).pixel, (drawSprite_overlays g x y h).pixel, Bool.xor_assoc, Bool.xor_self,
      Bool.xor_false]
  · have hblank (px py : Nat) : Grid.get (drawSprite Grid.blank x y rows).2 px py = spriteBit x y rows px py := by
      rw [(drawSprite_overlays Grid.blank x y h).pixel, Grid.get_blank, Bool.false_xor]
    rw [Bool.eq_iff_iff, (drawSprite_overlays _ x y h).collided]
    simpa [hblank] using exists_spriteBit_iff x y h

/-- Settles O35: the draw lock decides; a draw reads its rows and changes the display, VF, the lock and the signal. -/
theorem drawOrRollBack : Obligations.DrawOrRollBack := by
  refine fun x y n s => ⟨decodeWord_encode (.drw x y n), fun hopen hbacked => ?_, exec_drw_of_locked⟩
  refine ⟨_, exec_drw_of_open hopen hbacked, rfl, ?_, rfl, rfl, rfl, rfl, rfl, rfl⟩
  rw [State.reg_vf_withSprite, ← toNat_flagByte, Bool.decide_eq_true]

/-- Settles O38: the lock counts as a draw already made, and only a tick or a reset opens it. -/
theorem atMostOneDrawBetweenTicks : Obligations.AtMostOneDrawBetweenTicks :=
  fun n s h => (Nat.le_add_right _ _).trans (drawsWithin_add_lock_le n s h)

/-- Settles O39: the buffer is the vector of rows flattened. -/
theorem linearBufferRowMajor : Obligations.LinearBufferRowMajor := by
  intro s
  rw [linearBuffer_eq_flatten]
  refine ⟨Vector.length_toList, fun px py hx hy => ?_⟩
  have hindex : py * 64 + px < 32 * 64 := by omega
  have hrow : (py * 64 + px) / 64 = py := by omega
  have hcol : (py * 64 + px) % 64 = px := by omega
  rw [Vector.getElem?_toList, Vector.getElem?_eq_getElem hindex, Vector.getElem_flatten]
  simp [Grid.get, hrow, hcol, Nat.mod_eq_of_lt hx, Nat.mod_eq_of_lt hy]

/-- Settles O34: 00E0 answers the state with a blank display. -/
theorem clearTurnsPixelsOff : Obligations.ClearTurnsPixelsOff :=
  fun s => ⟨decodeWord_encode .cls, { s with pix := Grid.blank }, rfl, Grid.get_blank, rfl, rfl, rfl⟩
end

section
/-! PROOFS. Keys and timers (spec/45_keys_timers.md): the lowest pressed key, the rows of Fx0A's key wait and the run of
cycles and key changes that ends it, the countdown of the timers, and the host's ports to them. -/

namespace Sys2Proof.Machine

variable {s t : State} {i : Instr} {x k : Nibble} {rest : List Transaction}

/-! ### Keys -/

/-- The search goes through the key numbers upwards. -/
theorem lowestFrom_eq_find? (s : State) : ∀ n k, lowestFrom s k n =
    ((List.range' k n).find? fun j => s.keyPressed (BitVec.ofNat 4 j)).map (BitVec.ofNat 4)
  | 0, _ => rfl
  | n + 1, k => by
    rw [lowestFrom, List.range'_succ, List.find?_cons, lowestFrom_eq_find? s n (k + 1)]
    cases s.keyPressed (BitVec.ofNat 4 k) <;> rfl

theorem lowestPressed_eq_find? (s : State) : lowestPressed s =
    ((List.range 16).find? fun j => s.keyPressed (BitVec.ofNat 4 j)).map (BitVec.ofNat 4) := by
  rw [lowestPressed, lowestFrom_eq_find?, List.range_eq_range']

theorem lowestPressed_eq_some_iff :
    lowestPressed s = some k ↔ s.keyPressed k = true ∧ ∀ j, j < k → s.keyPressed j = false := by
  simp only [lowestPressed_eq_find?, Option.map_eq_some_iff, List.find?_range_eq_some, Bool.not_eq_true',
    List.mem_range]
  constructor
  · rintro ⟨a, ⟨hpressed, ha, hlower⟩, rfl⟩
    refine ⟨hpressed, fun j hj => ?_⟩
    have hlt : j.toNat < a := by simpa [BitVec.lt_def, Nat.mod_eq_of_lt ha] using hj
    simpa using hlower j.toNat hlt
  · rintro ⟨hpressed, hlower⟩
    refine ⟨k.toNat, ⟨by simpa using hpressed, k.isLt, fun j hj => hlower _ ?_⟩, by simp⟩
    have hj16 : j < 16 := hj.trans k.isLt
    simpa [BitVec.lt_def, Nat.mod_eq_of_lt hj16] using hj

theorem lowestPressed_eq_none_iff : lowestPressed s = none ↔ ∀ j, s.keyPressed j = false := by
  simp only [lowestPressed_eq_find?, Option.map_eq_none_iff, List.find?_range_eq_none, Bool.not_eq_true']
  exact ⟨fun h j => by simpa using h j.toNat j.isLt, fun h j _ => h _⟩

/-- Only the key slots are read. -/
theorem lowestPressed_congr (hk : t.key = s.key) : lowestPressed t = lowestPressed s := lowestFrom_congr hk 16 0

/-- Where no key is held, a press makes the pressed key the lowest. -/
theorem lowestPressed_setKey (h : ∀ j, s.keyPressed j = false) (k : Nibble) :
    lowestPressed (s.setKey k true) = some k := by
  simp only [lowestPressed_eq_some_iff, s.keyPressed_setKey, h, if_true, true_and]
  exact fun j hj => if_neg (BitVec.ne_of_lt hj)

/-- The key index is the remainder of the division by 16 (R225). -/
theorem keyIndex_eq_iff {b : Byte} : keyIndex b = k ↔ k.toNat = b.toNat % 16 := by
  rw [keyIndex, ← BitVec.toNat_inj, BitVec.toNat_setWidth, eq_comm]

/-! ### The rows of the key wait (R233) -/

/-- With no key remembered, Fx0A looks for a press. -/
theorem exec_ldVxK_eq_awaitPress (x : Nibble) (hw : s.wait = .running ∨ s.wait = .awaitingKeyPress) :
    exec (.ldVxK x) s = .next (awaitPress s) := by
  rcases hw with hw | hw <;> simp only [exec, execLdVxK, hw]

theorem exec_ldVxK_of_noKey (x : Nibble) (hw : s.wait = .running ∨ s.wait = .awaitingKeyPress)
    (hkey : lowestPressed s = none) :
    exec (.ldVxK x) s = .next { s with pc := s.pc - 2, wait := .awaitingKeyPress } := by
  rw [exec_ldVxK_eq_awaitPress x hw, awaitPress, hkey, State.rollback]

theorem exec_ldVxK_of_press (x : Nibble) (hw : s.wait = .running ∨ s.wait = .awaitingKeyPress)
    (hkey : lowestPressed s = some k) :
    exec (.ldVxK x) s = .next { s with pc := s.pc - 2, wait := .awaitingKeyRelease k } := by
  rw [exec_ldVxK_eq_awaitPress x hw, awaitPress, hkey, State.rollback]

theorem exec_ldVxK_of_held (x : Nibble) (hw : s.wait = .awaitingKeyRelease k) (hkey : s.keyPressed k = true) :
    exec (.ldVxK x) s = .next { s with pc := s.pc - 2 } := by
  simp only [exec, execLdVxK, hw, hkey, if_true, State.rollback]

theorem exec_ldVxK_of_released (x : Nibble) (hw : s.wait = .awaitingKeyRelease k) (hkey : s.keyPressed k = false) :
    exec (.ldVxK x) s = .next { s.setReg x (k.setWidth 8) with wait := .running } := by
  simp only [exec, execLdVxK, hw, hkey, Bool.false_eq_true, if_false]

/-- Vx is the number of the key. -/
theorem toNat_reg_setReg_key (s : State) (x k : Nibble) : ((s.setReg x (k.setWidth 8)).reg x).toNat = k.toNat := by
  rw [s.reg_setReg_self, BitVec.toNat_setWidth_of_le (by decide)]

/-! ### Steps -/

/-- A step of a running machine performs the transaction the host has decided on. -/
theorem step_of_schedule {tr : Transaction} (hrun : s.halted = none) (hsched : s.schedule = tr :: rest) :
    step s = act tr { s with schedule := rest } := by
  simp only [step, hsched, perform, hrun]

/-- The state in which the instruction of a cycle starts, after the fetch advance (R114). -/
abbrev State.fetched (s : State) (rest : List Transaction) : State :=
  { s with drew := false, pc := s.pc + 2, schedule := rest }

/-- A cycle runs the instruction the machine is at. -/
theorem State.At.step_cycle (hat : s.At i) (hsched : s.schedule = .cycle :: rest) :
    step s = exec i (s.fetched rest) := by
  have hnext : s.nextIsCycle := .inr (by rw [hsched, List.head?_cons])
  rw [step_of_pc_le hat.running hnext hat.pc_le, runWord_of_some hat.decodes, hsched, List.tail_cons, State.advance]

/-- A run of any core that begins with a step. -/
theorem run_of_core_step (M : Host.Core) {s t : M.State} (hstep : M.step s = .next t) (n : Nat) :
    M.run (n + 1) s = M.run n t := by
  rw [Host.Core.run, hstep]

theorem core_run_of_step (hstep : step s = .next t) (n : Nat) :
    Sys2Proof.core.run (n + 1) s = Sys2Proof.core.run n t :=
  run_of_core_step Sys2Proof.core hstep n

/-- The state a cycle of a key wait leaves while the wait goes on: pc is back at the Fx0A. -/
abbrev State.waiting (s : State) (w : KeyWait) (rest : List Transaction) : State :=
  { s with drew := false, wait := w, schedule := rest }

/-! What the host or a cycle of a key wait changes leaves the machine at its instruction. -/

theorem State.At.withSchedule (hat : s.At i) (rest : List Transaction) : (s.withSchedule rest).At i :=
  ⟨hat.running, hat.pc_le, hat.decodes⟩

theorem State.At.setKey (hat : s.At i) (k : Nibble) (p : Bool) : (s.setKey k p).At i :=
  ⟨hat.running, hat.pc_le, hat.decodes⟩

theorem State.At.waiting (hat : s.At i) (w : KeyWait) (rest : List Transaction) : (s.waiting w rest).At i :=
  ⟨hat.running, hat.pc_le, hat.decodes⟩

/-! ### A key wait from its first cycle to its last (R234) -/

section KeyWait

variable (hat : s.At (.ldVxK x))
include hat

/-- A cycle that finds no key pressed: the rollback undoes the fetch advance (R115). -/
theorem State.At.step_noKey (hsched : s.schedule = .cycle :: rest)
    (hw : s.wait = .running ∨ s.wait = .awaitingKeyPress) (hkey : lowestPressed s = none) :
    step s = .next (s.waiting .awaitingKeyPress rest) := by
  have hkey' : lowestPressed (s.fetched rest) = none := (lowestPressed_congr rfl).trans hkey
  rw [hat.step_cycle hsched, exec_ldVxK_of_noKey (s := s.fetched rest) x hw hkey', BitVec.add_sub_cancel]

/-- A cycle that finds a key pressed. -/
theorem State.At.step_press (hsched : s.schedule = .cycle :: rest)
    (hw : s.wait = .running ∨ s.wait = .awaitingKeyPress) (hkey : lowestPressed s = some k) :
    step s = .next (s.waiting (.awaitingKeyRelease k) rest) := by
  have hkey' : lowestPressed (s.fetched rest) = some k := (lowestPressed_congr rfl).trans hkey
  rw [hat.step_cycle hsched, exec_ldVxK_of_press (s := s.fetched rest) x hw hkey', BitVec.add_sub_cancel]

/-- A cycle that finds the remembered key released. -/
theorem State.At.step_released (hsched : s.schedule = .cycle :: rest)
    (hw : s.wait = .awaitingKeyRelease k) (hkey : s.keyPressed k = false) :
    step s = .next { (s.fetched rest).setReg x (k.setWidth 8) with wait := .running } := by
  rw [hat.step_cycle hsched, exec_ldVxK_of_released (s := s.fetched rest) x hw hkey]

/-- The host presses a key where none is held, and a cycle finds it. -/
theorem State.At.run_press (hsched : s.schedule = .setKey k true :: .cycle :: rest)
    (hw : s.wait = .awaitingKeyPress) (hkeys : ∀ j, s.keyPressed j = false) (n : Nat) :
    Sys2Proof.core.run (n + 2) s
      = Sys2Proof.core.run n ((s.setKey k true).waiting (.awaitingKeyRelease k) rest) := by
  have hset : step s = .next ((s.withSchedule (.cycle :: rest)).setKey k true) := step_of_schedule hat.running hsched
  have hcycle := ((hat.withSchedule (.cycle :: rest)).setKey k true).step_press rfl (.inr hw)
    (lowestPressed_setKey hkeys k)
  exact (core_run_of_step hset (n + 1)).trans (core_run_of_step hcycle n)

/-- The host releases the remembered key, and a cycle ends the wait with its number in Vx. -/
theorem State.At.run_release (hsched : s.schedule = .setKey k false :: .cycle :: rest)
    (hw : s.wait = .awaitingKeyRelease k) :
    Sys2Proof.core.run 2 s
      = .next { ((s.setKey k false).fetched rest).setReg x (k.setWidth 8) with wait := .running } := by
  have hset : step s = .next ((s.withSchedule (.cycle :: rest)).setKey k false) := step_of_schedule hat.running hsched
  have hcycle := ((hat.withSchedule (.cycle :: rest)).setKey k false).step_released rfl hw
    (by simp [State.keyPressed_setKey])
  exact (core_run_of_step hset 1).trans (core_run_of_step hcycle 0)

end KeyWait

/-! ### Timers -/

theorem toNat_countDown (b : Byte) : (countDown b).toNat = b.toNat - 1 := by
  unfold countDown
  split
  case isTrue hzero => rw [hzero]; rfl
  case isFalse hpos => bv_omega

/-- By induction on the ticks: each takes one off, down to 0 (R241). -/
theorem toNat_iterate_countDown (n : Nat) (b : Byte) : (countDown^[n] b).toNat = b.toNat - n := by
  induction n with
  | zero => rfl
  | succ n ih => rw [Function.iterate_succ_apply', toNat_countDown, ih, Nat.sub_sub]

theorem toNat_dt_ticks (n : Nat) (s : State) : (State.tickTimers^[n] s).dt.toNat = s.dt.toNat - n := by
  have htick : Function.Semiconj State.dt State.tickTimers countDown := State.tickTimers_dt
  rw [(htick.iterate_right n).eq, toNat_iterate_countDown]

theorem toNat_st_ticks (n : Nat) (s : State) : (State.tickTimers^[n] s).st.toNat = s.st.toNat - n := by
  have htick : Function.Semiconj State.st State.tickTimers countDown := State.tickTimers_st
  rw [(htick.iterate_right n).eq, toNat_iterate_countDown]

/-- The tone sounds while ticks are left in ST (R243). -/
theorem tone_ticks_iff (n : Nat) (s : State) : tone (State.tickTimers^[n] s) = true ↔ n < s.st.toNat := by
  rw [tone, decide_eq_true_iff, toNat_st_ticks, gt_iff_lt, Nat.sub_pos_iff_lt]

end Sys2Proof.Machine

open Sys2Proof Sys2Proof.Machine

/-- Settles O40: the search goes through the key numbers upwards. -/
theorem lowestPressedKey : Obligations.LowestPressedKey :=
  fun _ => ⟨fun _ => lowestPressed_eq_some_iff, lowestPressed_eq_none_iff⟩

/-- Settles O41: the rows of the table, the lowest pressed key told by its characterisation. -/
theorem keyWaitTable : Obligations.KeyWaitTable := by
  refine fun x s => ⟨decodeWord_encode (.ldVxK x), fun hw => ⟨fun hnone => ?_, fun k hk hlower => ?_⟩,
    fun k hw => ⟨exec_ldVxK_of_held x hw, fun hk => ?_⟩⟩
  · exact exec_ldVxK_of_noKey x hw (lowestPressed_eq_none_iff.mpr hnone)
  · exact exec_ldVxK_of_press x hw (lowestPressed_eq_some_iff.mpr ⟨hk, hlower⟩)
  · exact ⟨_, exec_ldVxK_of_released x hw hk, toNat_reg_setReg_key s x k, rfl, rfl, fun r hr => s.reg_setReg_ne _ hr⟩

/-- Settles O42: a cycle that finds no key, a press with its cycle, and a release with its cycle, at the same Fx0A. -/
theorem keyWaitCompletes : Obligations.KeyWaitCompletes := by
  intro s x k hrun hw hkeys hpc hdec hsched
  have hat : s.At (.ldVxK x) := ⟨hrun, hpc, hdec⟩
  have hcycle := hat.step_noKey hsched (.inl hw) (lowestPressed_eq_none_iff.mpr hkeys)
  have hat₁ := hat.waiting .awaitingKeyPress [.setKey k true, .cycle, .setKey k false, .cycle]
  have hpress := hat₁.run_press rfl rfl hkeys 2
  have hat₂ := (hat₁.setKey k true).waiting (.awaitingKeyRelease k) [.setKey k false, .cycle]
  have hrelease := hat₂.run_release rfl rfl
  exact ⟨_, (core_run_of_step hcycle 4).trans (hpress.trans hrelease), toNat_reg_setReg_key s x k,
    fun r hr => s.reg_setReg_ne _ hr, rfl, rfl, hrun, rfl⟩

/-- Settles O46: by induction on the ticks. -/
theorem timersReachZero : Obligations.TimersReachZero :=
  fun n s => ⟨toNat_dt_ticks n s, toNat_st_ticks n s⟩

/-- Settles O22: both are a skip, on the key's level and on its negation. -/
theorem skipOnKey : Obligations.SkipOnKey := by
  intro x k s hk
  obtain rfl : keyIndex (s.reg x) = k := keyIndex_eq_iff.mpr hk
  refine ⟨decodeWord_encode (.skp x), decodeWord_encode (.sknp x), ?_, ?_⟩
  · exact ⟨skipIf (s.keyPressed (keyIndex (s.reg x))) s, rfl, by simp, skipIf_reg _ s _, skipIf_halted _ s⟩
  · exact ⟨skipIf (!s.keyPressed (keyIndex (s.reg x))) s, rfl, by simp [← Bool.not_eq_true], skipIf_reg _ s _,
      skipIf_halted _ s⟩

/-- Settles O43: a timer written from Vx counts down from Vx. -/
theorem timerWrites : Obligations.TimerWrites := by
  refine fun x s => ⟨decodeWord_encode (.ldDtVx x), decodeWord_encode (.ldStVx x), ?_, ?_⟩
  · refine ⟨{ s with dt := s.reg x }, rfl, rfl, rfl, rfl, BitVec.eq_of_toNat_eq ?_⟩
    exact (toNat_dt_ticks _ _).trans (Nat.sub_self _)
  · exact ⟨{ s with st := s.reg x }, rfl, rfl, rfl, rfl, fun k => tone_ticks_iff k _⟩

/-- Settles O44: one register is written. -/
theorem delayTimerRead : Obligations.DelayTimerRead :=
  fun x s => ⟨decodeWord_encode (.ldVxDt x), s.setReg x s.dt, rfl, s.reg_setReg_self x _, rfl,
    fun _ hr => s.reg_setReg_ne _ hr⟩

/-- Settles O45: the step is the tick. -/
theorem tickCountsDown : Obligations.TickCountsDown :=
  fun s rest hrun hsched => ⟨State.tickTimers { s with schedule := rest }, step_of_schedule hrun hsched,
    toNat_countDown s.dt, toNat_countDown s.st, rfl, rfl⟩

/-- Settles O47: the step is the write of the one slot, or of the one pixel. -/
theorem hostPortsChangeOnePlace : Obligations.HostPortsChangeOnePlace := by
  refine fun s rest hrun => ⟨fun k p hsched => ?_, fun px py on hsched => ?_⟩
  · exact ⟨State.setKey { s with schedule := rest } k p, step_of_schedule hrun hsched,
      fun j => s.keyPressed_setKey k j p, rfl⟩
  · exact ⟨State.setPixel { s with schedule := rest } px py on, step_of_schedule hrun hsched,
      fun qx qy => Grid.get_set s.pix px py qx qy on, rfl⟩
end

section
/-! PROOFS. Errors and the fault latch (spec/60_exceptions.md): which error an instruction can latch and from what, and
that a halted machine accepts reset only. -/

namespace Sys2Proof.Machine

variable {i : Instr} {s t : State} {x y n : Nibble} {e : Error} {tr : Transaction}

/-! ### The latch after an access to memory

Each of the four instructions that access memory from I up keeps the latch, or runs past the end of memory. -/

/-- The font policy stops a store that starts at I, or lets it through (R69). -/
theorem State.fontPolicy_cases (s : State) :
    (s.i.toNat ≤ 0x04F ∧ s.fontWrite = .refuse) ∨ (0x04F < s.i.toNat ∨ s.fontWrite = .store) := by
  cases hw : s.fontWrite with
  | store => exact .inr (.inr rfl)
  | refuse => exact (Nat.lt_or_ge 0x04F s.i.toNat).symm.imp (⟨·, rfl⟩) .inl

theorem exec_ldB_latch (h : exec (.ldB x) s = .next t) : t.halted = s.halted ∨ t = s.outOfRangeAtI := by
  rcases Nat.lt_or_ge 4096 (s.i.toNat + 3) with hout | hin
  · cases (exec_ldB_past_end hout).symm.trans h
    exact .inr rfl
  · rcases s.fontPolicy_cases with ⟨hfont, hrefuse⟩ | hpolicy
    · cases (exec_ldB_refused hfont hrefuse).symm.trans h
    · cases (exec_ldB_of_backed hin hpolicy).symm.trans h
      exact .inl rfl

theorem exec_stRegs_latch (h : exec (.stRegs x) s = .next t) : t.halted = s.halted ∨ t = s.outOfRangeAtI := by
  rcases Nat.lt_or_ge 4096 (s.i.toNat + (x.toNat + 1)) with hout | hin
  · cases (exec_stRegs_past_end hout).symm.trans h
    exact .inr rfl
  · rcases s.fontPolicy_cases with ⟨hfont, hrefuse⟩ | hpolicy
    · cases (exec_stRegs_refused hfont hrefuse).symm.trans h
    · cases (exec_stRegs_of_backed hin hpolicy).symm.trans h
      exact .inl rfl

theorem exec_ldRegs_latch (h : exec (.ldRegs x) s = .next t) : t.halted = s.halted ∨ t = s.outOfRangeAtI := by
  rcases Nat.lt_or_ge 4096 (s.i.toNat + (x.toNat + 1)) with hout | hin
  · cases (exec_ldRegs_past_end hout).symm.trans h
    exact .inr rfl
  · cases (exec_ldRegs_of_backed hin).symm.trans h
    rw [State.setRegsFrom_eq]
    exact .inl rfl

theorem exec_drw_latch (h : exec (.drw x y n) s = .next t) : t.halted = s.halted ∨ t = s.outOfRangeAtI := by
  rcases execDrw_cases h with ⟨-, rfl⟩ | ⟨-, -, rfl⟩ | ⟨-, -, rfl⟩
  · exact .inl rfl
  · exact .inl rfl
  · exact .inr rfl

/-- An access that latches an error reports an address above 4095 (R62, R63). -/
theorem addressOutOfRange_of_latch (haccess : t.halted = s.halted ∨ t = s.outOfRangeAtI) (hrun : s.halted = none)
    (he : t.halted = some e) : ∃ a, e = .addressOutOfRange a ∧ a > 4095 := by
  rcases haccess with hkept | rfl
  · simp [hkept, hrun] at he
  · cases he
    exact ⟨_, rfl, by omega⟩

/-- An instruction whose frame leaves out the latch raises no error (R120, R251). -/
theorem exec_keeps_latch (h : exec i s = .next t) (hi : Part.halted ∉ writesPart i) : t.halted = s.halted :=
  (exec_frame h).part .halted hi

/-! ### A halted machine -/

/-- A halted machine has no step for a transaction other than reset (R254). -/
theorem perform_of_halted (hhalted : s.halted = some e) (htr : tr ≠ .reset) : perform tr s = .fault (.halted e) := by
  unfold perform
  rw [hhalted]
  cases tr with
  | reset => exact absurd rfl htr
  | cycle | tickTimers | setKey _ _ | load _ | setPixel _ _ _ => rfl

/-- An empty schedule stands for a cycle, so only a reset at the head of the schedule makes reset the next
transaction. -/
theorem nextTransaction_ne_reset (h : s.schedule.head? ≠ some .reset) : s.nextTransaction ≠ .reset := by
  cases hhead : s.schedule.head? with
  | none => simp [State.nextTransaction, hhead]
  | some tr => simpa [State.nextTransaction, hhead] using h

end Sys2Proof.Machine

open Sys2Proof Sys2Proof.Machine

/-- Settles O13: an instruction that can set the latch is a call, a return or an access to memory from I up, and each of
them has one error. -/
theorem errorCausesAreTheListed : Obligations.ErrorCausesAreTheListed := by
  intro i s t e hrun h he
  cases i with
  | call nnn =>
    rcases execCall_cases h with ⟨_, rfl⟩ | ⟨hfull, rfl⟩
    · simp [hrun] at he
    · cases he
      exact .inl ⟨rfl, hfull, nnn, rfl⟩
  | ret =>
    rcases execRet_cases h with ⟨_, rfl⟩ | ⟨hempty, rfl⟩
    · simp [hrun] at he
    · cases he
      exact .inr (.inl ⟨rfl, hempty, rfl⟩)
  | drw x y n =>
    obtain ⟨a, rfl, ha⟩ := addressOutOfRange_of_latch (exec_drw_latch h) hrun he
    exact .inr (.inr ⟨a, rfl, ha, .inl ⟨x, y, n, rfl⟩⟩)
  | ldB x =>
    obtain ⟨a, rfl, ha⟩ := addressOutOfRange_of_latch (exec_ldB_latch h) hrun he
    exact .inr (.inr ⟨a, rfl, ha, .inr (.inl ⟨x, rfl⟩)⟩)
  | stRegs x =>
    obtain ⟨a, rfl, ha⟩ := addressOutOfRange_of_latch (exec_stRegs_latch h) hrun he
    exact .inr (.inr ⟨a, rfl, ha, .inr (.inr (.inl ⟨x, rfl⟩))⟩)
  | ldRegs x =>
    obtain ⟨a, rfl, ha⟩ := addressOutOfRange_of_latch (exec_ldRegs_latch h) hrun he
    exact .inr (.inr ⟨a, rfl, ha, .inr (.inr (.inr ⟨x, rfl⟩))⟩)
  | _ =>
    have hkept := exec_keeps_latch h (by simp [writesPart])
    simp [hkept, hrun] at he

/-- Settles O11: the step performs the next transaction, which a halted machine accepts only when it is a reset. -/
theorem haltedAcceptsResetOnly : Obligations.HaltedAcceptsResetOnly := by
  refine fun s e hhalted => ⟨fun hreset => ?_, fun hother => ?_⟩
  · rw [step_eq_perform, hreset, Option.getD_some, perform_reset]
    exact ⟨_, rfl, rfl⟩
  · rw [step_eq_perform]
    exact perform_of_halted hhalted (nextTransaction_ne_reset hother)
end

section
/-! PROOFS. The host's duties (spec/70_reset_and_hazards.md R290 to R293): what a moment of a host does to a machine that
waits at a Dxyn or an Fx0A, the rule by which a duty ends a wait, and the jump to itself at which a run ends. -/

namespace Sys2Proof.Machine

variable {h : HostBehaviour} {o : Option Transaction} {i : Instr} {s t u : State} {x y n k : Nibble} {e : Addr12}

/-! ### The jump to itself -/

/-- The jump undoes the fetch advance by its target (R130, R293). -/
theorem State.atSelfJump.cycle_eq (hjump : s.atSelfJump e) : cycle s = .next { s with drew := false } := by
  obtain ⟨hpc, hword⟩ := hjump
  have hfetch : fetch s.beginCycle = .ok (encode (.jp e)) := hword
  have hexec : exec (.jp e) s.beginCycle.advance = .next { s with drew := false, pc := absTarget e } := rfl
  simp only [cycle, hfetch]
  rw [runWord_of_some (decodeWord_encode (.jp e)), hexec, ← hpc]

/-! ### What a moment of a host does -/

/-- What a moment that issues no cycle, no load and no reset does: it leaves the machine alone, or uses one of the host's
other ports. -/
inductive PortMoment (s : State) : Option Transaction → State → Prop where
  | idle : PortMoment s none s
  | tick : PortMoment s (some .tickTimers) s.tickTimers
  | setKey (k : Nibble) (p : Bool) : PortMoment s (some (.setKey k p)) (s.setKey k p)
  | setPixel (px py : Nat) (on : Bool) : PortMoment s (some (.setPixel px py on)) (s.setPixel px py on)

/-- A moment of a host that leaves the program in place. -/
theorem issue_cases (hrun : s.halted = none) (hprogram : o ≠ some .reset ∧ ∀ rom, o ≠ some (.load rom)) :
    o = some .cycle ∨ ∃ t, issue o s = .next t ∧ PortMoment s o t := by
  have hperform (tr : Transaction) : issue (some tr) s = act tr s := by simp only [issue, perform, hrun]
  rcases o with _ | tr
  · exact .inr ⟨s, rfl, .idle⟩
  cases tr with
  | cycle => exact .inl rfl
  | tickTimers => exact .inr ⟨_, hperform _, .tick⟩
  | setKey k p => exact .inr ⟨_, hperform _, .setKey k p⟩
  | setPixel px py on => exact .inr ⟨_, hperform _, .setPixel px py on⟩
  | load rom => exact absurd rfl (hprogram.2 rom)
  | reset => exact absurd rfl hprogram.1

/-- Only the tick opens the lock (R240). -/
theorem PortMoment.vblank (hport : PortMoment s o t) (htick : o ≠ some .tickTimers) : t.vblank = s.vblank := by
  cases hport with
  | tick => exact absurd rfl htick
  | idle | setKey _ _ | setPixel _ _ _ => rfl

theorem PortMoment.vblank_of_open (hport : PortMoment s o t) (hopen : s.vblank = false) : t.vblank = false := by
  cases hport with
  | tick => rfl
  | idle | setKey _ _ | setPixel _ _ _ => exact hopen

theorem PortMoment.wait (hport : PortMoment s o t) : t.wait = s.wait := by
  cases hport <;> rfl

theorem PortMoment.keysReleased (hport : PortMoment s o t) (hpress : ∀ k, o ≠ some (.setKey k true))
    (hkeys : ∀ k, s.keyPressed k = false) (k : Nibble) : t.keyPressed k = false := by
  cases hport with
  | setKey j p =>
    cases p with
    | true => exact absurd rfl (hpress j)
    | false => simp [State.keyPressed_setKey, hkeys]
  | idle | tick | setPixel _ _ _ => exact hkeys k

/-- From `s` to `t` only timers, draw lock, keys and pixels change. -/
def State.PortsOnly (s t : State) : Prop :=
  t = { s with dt := t.dt, st := t.st, vblank := t.vblank, key := t.key, pix := t.pix }

theorem PortMoment.portsOnly (hport : PortMoment s o t) : s.PortsOnly t := by
  cases hport <;> rfl

theorem State.PortsOnly.halted (hports : s.PortsOnly t) : t.halted = s.halted := by
  rw [hports]

theorem State.PortsOnly.trans (hst : s.PortsOnly t) (htu : t.PortsOnly u) : s.PortsOnly u := by
  unfold State.PortsOnly at *
  rw [htu, hst]

/-! ### The key levels of a host's run -/

/-- No instruction sets a key. -/
theorem cycle_key (hcycle : cycle s = .next t) : t.key = s.key := by
  rcases cycle_cases hcycle with ⟨e, rfl⟩ | ⟨-, i, -, hexec⟩
  · rfl
  · exact (exec_frame hexec).host.1

theorem loadRom_key {rom : List Byte} (hload : loadRom s rom = .next t) : t.key = s.key := by
  rcases loadRom_cases s rom with ⟨-, hdone⟩ | ⟨-, hdone⟩ <;> cases hdone.symm.trans hload <;> rfl

/-- One more moment keeps `keyLevel` the level the machine holds. -/
theorem keyLevel_succ {start : Nibble → Bool} {m : Nat} (hlevel : keyLevel h start k m = s.keyPressed k)
    (hmoment : issue (h m) s = .next t) : keyLevel h start k (m + 1) = t.keyPressed k := by
  have hkept (hkey : t.key = s.key) : keyLevel h start k m = t.keyPressed k := by
    rw [hlevel, State.keyPressed, State.keyPressed, hkey]
  have hreleased : s.rebuilt.keyPressed k = false :=
    (State.fresh_isFresh s.font s.fontWrite s.draws s.schedule).keys_released k
  rcases ho : h m with _ | tr <;> rw [ho] at hmoment <;> simp only [keyLevel, ho]
  · cases hmoment
    exact hlevel
  rcases perform_cases hmoment with ⟨rfl, rfl⟩ | ⟨-, hact⟩
  · exact hreleased.symm
  · cases tr with
    | cycle => exact hkept (cycle_key hact)
    | load rom => exact hkept (loadRom_key hact)
    | tickTimers | setPixel _ _ _ => cases hact; exact hlevel
    | reset => cases hact; exact hreleased.symm
    | setKey j p => cases hact; simp [State.keyPressed_setKey, hlevel, eq_comm]

/-- `keyLevel` is the level the machine holds. -/
theorem keyLevel_of_hostRun (k : Nibble) : ∀ {m : Nat} {t : State}, hostRun h m s = .next t →
    keyLevel h s.keyPressed k m = t.keyPressed k
  | 0, _, hrun => by cases hrun; rfl
  | m + 1, _, hrun => by
    obtain ⟨u, hrun, hmoment⟩ := andThen_inv hrun
    exact keyLevel_succ (keyLevel_of_hostRun k hrun) hmoment

/-! ### Rules for the runs of a host -/

/-- What every moment keeps holds at every moment. -/
theorem hostRun_keeps {P : State → Prop} (hstart : P s)
    (hmoment : ∀ m t, P t → ∃ u, issue (h m) t = .next u ∧ P u) : ∀ m, ∃ t, hostRun h m s = .next t ∧ P t
  | 0 => ⟨s, rfl, hstart⟩
  | m + 1 => by
    obtain ⟨t, hrun, ht⟩ := hostRun_keeps hstart hmoment m
    rw [hostRun_succ hrun]
    exact hmoment m t ht

/-- At some moment of its run the host has brought the machine to a state with `P`. -/
def Reaches (h : HostBehaviour) (s : State) (P : State → Prop) : Prop := ∃ m t, hostRun h m s = .next t ∧ P t

section LeadsTo

variable {P Q : State → Prop} {serves : Nat → Prop}
  (hmoment : ∀ m t, hostRun h m s = .next t → P t → ∃ u, issue (h m) t = .next u ∧ (P u ∧ ¬ serves m ∨ Q u))
include hmoment

/-- A wait whose every moment goes on without service or ends it has ended `d` moments on, if that moment serves. -/
theorem reaches_of_serves : ∀ (d m : Nat) (t : State), hostRun h m s = .next t → P t → serves (m + d) →
    Reaches h s Q
  | d, m, t, hrun, ht, hserves => by
    obtain ⟨u, hissue, ⟨hu, hunserved⟩ | hu⟩ := hmoment m t hrun ht
    · cases d with
      | zero => exact absurd hserves hunserved
      | succ d =>
        have hrun' : hostRun h (m + 1) s = .next u := (hostRun_succ hrun).trans hissue
        exact reaches_of_serves d (m + 1) u hrun' hu (Nat.succ_add_eq_add_succ m d ▸ hserves)
    · exact ⟨m + 1, u, (hostRun_succ hrun).trans hissue, hu⟩

/-- The rule of fairness: where a moment that serves comes after every moment, the wait ends (R292). -/
theorem Reaches.leadsTo (hwait : Reaches h s P) (hfair : ∀ m, ∃ m', m ≤ m' ∧ serves m') : Reaches h s Q := by
  obtain ⟨m, t, hrun, ht⟩ := hwait
  obtain ⟨m', hle, hserves⟩ := hfair m
  obtain ⟨d, rfl⟩ := Nat.exists_eq_add_of_le hle
  exact reaches_of_serves hmoment d m t hrun ht hserves

end LeadsTo

/-! ### A machine that waits at its instruction -/

/-- `t` is still at the instruction `i` where `s` was, with its registers and I. -/
structure State.WaitsAt (s : State) (i : Instr) (t : State) : Prop where
  still : t.At i
  pc : t.pc = s.pc
  v : t.v = s.v
  index : t.i = s.i

theorem State.At.waitsAt_self (hat : s.At i) : s.WaitsAt i s := ⟨hat, rfl, rfl, rfl⟩

theorem State.At.congr (hat : s.At i) (hhalted : t.halted = s.halted) (hpc : t.pc = s.pc) (hmem : t.mem = s.mem)
    (hfont : t.font = s.font) : t.At i where
  running := hhalted.trans hat.running
  pc_le := hpc ▸ hat.pc_le
  decodes := by simpa only [hpc, State.byteAt_congr hmem hfont] using hat.decodes

theorem State.WaitsAt.port (hwaits : s.WaitsAt i t) (hport : PortMoment t o u) : s.WaitsAt i u where
  still := by cases hport <;> exact hwaits.still.congr rfl rfl rfl rfl
  pc := by cases hport <;> exact hwaits.pc
  v := by cases hport <;> exact hwaits.v
  index := by cases hport <;> exact hwaits.index

theorem State.WaitsAt.waiting (hwaits : s.WaitsAt i t) (w : KeyWait) (rest : List Transaction) :
    s.WaitsAt i (t.waiting w rest) :=
  ⟨hwaits.still.waiting w rest, hwaits.pc, hwaits.v, hwaits.index⟩

/-- A cycle of a host is the step of the schedule that begins with it. -/
theorem State.At.issue_cycle (hat : s.At i) : issue (some .cycle) s = exec i (s.fetched s.schedule) :=
  (hat.withSchedule (.cycle :: s.schedule)).step_cycle rfl

/-! ### The wait for the draw lock -/

/-- A blocked draw undoes the fetch advance (R115, R205). -/
theorem State.At.issue_locked (hat : s.At (.drw x y n)) (hlocked : s.vblank = true) :
    issue (some .cycle) s = .next (s.waiting s.wait s.schedule) := by
  rw [hat.issue_cycle, exec_drw_of_locked (s := s.fetched s.schedule) hlocked, BitVec.add_sub_cancel]

/-- `t` is `s` after its Dxyn has drawn (R205). -/
def State.HasDrawn (s t : State) : Prop :=
  t.pc = s.pc + 2 ∧ t.drew = true ∧ t.vblank = true ∧ t.i = s.i ∧ t.halted = none ∧ ∀ r, r ≠ 0xF → t.reg r = s.reg r

theorem State.WaitsAt.issue_open (hwaits : s.WaitsAt (.drw x y n) t) (hopen : t.vblank = false)
    (hbacked : n.toNat = 0 ∨ s.i.toNat + n.toNat ≤ 4096) :
    ∃ u, issue (some .cycle) t = .next u ∧ s.HasDrawn u := by
  have hbacked' : n.toNat = 0 ∨ (t.fetched t.schedule).i.toNat + n.toNat ≤ 4096 := by
    rwa [← hwaits.index] at hbacked
  refine ⟨_, hwaits.still.issue_cycle.trans (exec_drw_of_open hopen hbacked'), ?_, rfl, rfl, hwaits.index,
    hwaits.still.running, fun r hr => ?_⟩
  · exact congrArg (· + 2) hwaits.pc
  · exact (State.reg_setReg_ne _ _ hr).trans (State.reg_congr hwaits.v r)

/-- One moment of the wait for the lock: a tick opens it, and a cycle that finds it open draws. -/
theorem State.WaitsAt.draw_moment (hwaits : s.WaitsAt (.drw x y n) t)
    (hprogram : o ≠ some .reset ∧ ∀ rom, o ≠ some (.load rom))
    (hbacked : n.toNat = 0 ∨ s.i.toNat + n.toNat ≤ 4096) :
    ∃ u, issue o t = .next u ∧
      (s.WaitsAt (.drw x y n) u ∧ (o = some .tickTimers → u.vblank = false) ∧
        (t.vblank = false → o ≠ some .cycle ∧ u.vblank = false) ∨ s.HasDrawn u) := by
  rcases issue_cases hwaits.still.running hprogram with rfl | ⟨u, hissue, hport⟩
  · cases hlock : t.vblank with
    | true => exact ⟨_, hwaits.still.issue_locked hlock, .inl ⟨hwaits.waiting _ _, nofun, nofun⟩⟩
    | false =>
      obtain ⟨u, hissue, hdrawn⟩ := hwaits.issue_open hlock hbacked
      exact ⟨u, hissue, .inr hdrawn⟩
  · refine ⟨u, hissue, .inl ⟨hwaits.port hport, ?_, fun hopen => ⟨?_, hport.vblank_of_open hopen⟩⟩⟩
    · rintro rfl
      cases hport
      rfl
    · rintro rfl
      cases hport

/-- `t` is still at the Dxyn where `s` was, and its lock is open. -/
def State.MayDraw (s : State) (x y n : Nibble) (t : State) : Prop := s.WaitsAt (.drw x y n) t ∧ t.vblank = false

/-- A tick opens the lock, unless the draw has come before it (R207, R292). -/
theorem reaches_mayDraw (hat : s.At (.drw x y n)) (hbacked : n.toNat = 0 ∨ s.i.toNat + n.toNat ≤ 4096)
    (hprogram : LeavesProgram h) (hticks : KeepsTicking h) :
    Reaches h s fun t => s.MayDraw x y n t ∨ s.HasDrawn t := by
  have hstart : Reaches h s (s.WaitsAt (.drw x y n)) := ⟨0, s, rfl, hat.waitsAt_self⟩
  refine hstart.leadsTo (fun m t _ hwaits => ?_) hticks
  obtain ⟨u, hissue, ⟨hu, htick, -⟩ | hdrawn⟩ := hwaits.draw_moment (hprogram m) hbacked
  · by_cases hm : h m = some .tickTimers
    · exact ⟨u, hissue, .inr (.inl ⟨hu, htick hm⟩)⟩
    · exact ⟨u, hissue, .inl ⟨hu, hm⟩⟩
  · exact ⟨u, hissue, .inr (.inr hdrawn)⟩

/-- A cycle draws once the lock is open. -/
theorem reaches_hasDrawn (hopen : Reaches h s (s.MayDraw x y n))
    (hbacked : n.toNat = 0 ∨ s.i.toNat + n.toNat ≤ 4096) (hprogram : LeavesProgram h) (hcycles : KeepsCycling h) :
    Reaches h s s.HasDrawn := by
  refine hopen.leadsTo (fun m t _ ⟨hwaits, hlock⟩ => ?_) hcycles
  obtain ⟨u, hissue, ⟨hu, -, hkept⟩ | hdrawn⟩ := hwaits.draw_moment (hprogram m) hbacked
  · obtain ⟨hm, hlock'⟩ := hkept hlock
    exact ⟨u, hissue, .inl ⟨⟨hu, hlock'⟩, hm⟩⟩
  · exact ⟨u, hissue, .inr hdrawn⟩

/-- Without a tick the lock stays set and every cycle is blocked. -/
theorem State.WaitsAt.locked_moment (hwaits : s.WaitsAt (.drw x y n) t) (hlocked : t.vblank = true)
    (hprogram : o ≠ some .reset ∧ ∀ rom, o ≠ some (.load rom)) (htick : o ≠ some .tickTimers) :
    ∃ u, issue o t = .next u ∧ s.WaitsAt (.drw x y n) u ∧ u.vblank = true := by
  rcases issue_cases hwaits.still.running hprogram with rfl | ⟨u, hissue, hport⟩
  · exact ⟨_, hwaits.still.issue_locked hlocked, hwaits.waiting _ _, hlocked⟩
  · exact ⟨u, hissue, hwaits.port hport, (hport.vblank htick).trans hlocked⟩

/-! ### The wait for a key -/

/-- `t` is still at the Fx0A where `s` was, and remembers no key. -/
def State.AwaitsPress (s : State) (x : Nibble) (t : State) : Prop :=
  s.WaitsAt (.ldVxK x) t ∧ (t.wait = .running ∨ t.wait = .awaitingKeyPress)

/-- `t` is still at the Fx0A where `s` was, and remembers the key `k`. -/
def State.AwaitsRelease (s : State) (x k : Nibble) (t : State) : Prop :=
  s.WaitsAt (.ldVxK x) t ∧ t.wait = .awaitingKeyRelease k

/-- `t` is `s` after its Fx0A has taken the key `k` (R232). -/
def State.HasTakenKey (s : State) (x k : Nibble) (t : State) : Prop :=
  t.pc = s.pc + 2 ∧ t.wait = .running ∧ (t.reg x).toNat = k.toNat ∧ t.halted = none ∧ ∀ r, r ≠ x → t.reg r = s.reg r

/-- A cycle that finds no key pressed (R233). -/
theorem State.AwaitsPress.issue_noKey (hwaits : s.AwaitsPress x t) (hkeys : ∀ k, t.keyPressed k = false) :
    issue (some .cycle) t = .next (t.waiting .awaitingKeyPress t.schedule) :=
  (hwaits.1.still.withSchedule (.cycle :: t.schedule)).step_noKey rfl hwaits.2 (lowestPressed_eq_none_iff.mpr hkeys)

/-- A cycle that finds a key pressed (R233). -/
theorem State.AwaitsPress.issue_press (hwaits : s.AwaitsPress x t) (hkey : lowestPressed t = some k) :
    issue (some .cycle) t = .next (t.waiting (.awaitingKeyRelease k) t.schedule) :=
  (hwaits.1.still.withSchedule (.cycle :: t.schedule)).step_press rfl hwaits.2 hkey

theorem State.AwaitsPress.port (hwaits : s.AwaitsPress x t) (hport : PortMoment t o u) : s.AwaitsPress x u :=
  ⟨hwaits.1.port hport, hport.wait ▸ hwaits.2⟩

/-- One moment of the wait for a press: a cycle that finds a key pressed remembers one. -/
theorem State.AwaitsPress.moment (hwaits : s.AwaitsPress x t)
    (hprogram : o ≠ some .reset ∧ ∀ rom, o ≠ some (.load rom)) :
    ∃ u, issue o t = .next u ∧
      (s.AwaitsPress x u ∧ ¬ (o = some .cycle ∧ ∃ k, t.keyPressed k = true) ∨ ∃ k, s.AwaitsRelease x k u) := by
  rcases issue_cases hwaits.1.still.running hprogram with rfl | ⟨u, hissue, hport⟩
  · cases hkey : lowestPressed t with
    | none =>
      have hkeys := lowestPressed_eq_none_iff.mp hkey
      exact ⟨_, hwaits.issue_noKey hkeys, .inl ⟨⟨hwaits.1.waiting _ _, .inr rfl⟩, by simp [hkeys]⟩⟩
    | some k => exact ⟨_, hwaits.issue_press hkey, .inr ⟨k, hwaits.1.waiting _ _, rfl⟩⟩
  · refine ⟨u, hissue, .inl ⟨hwaits.port hport, ?_⟩⟩
    rintro ⟨rfl, -⟩
    cases hport

/-- One moment of the wait for a release: a cycle that finds the key released completes the Fx0A. -/
theorem State.AwaitsRelease.moment (hwaits : s.AwaitsRelease x k t)
    (hprogram : o ≠ some .reset ∧ ∀ rom, o ≠ some (.load rom)) :
    ∃ u, issue o t = .next u ∧
      (s.AwaitsRelease x k u ∧ ¬ (o = some .cycle ∧ t.keyPressed k = false) ∨ s.HasTakenKey x k u) := by
  obtain ⟨hat, hw⟩ := hwaits
  rcases issue_cases hat.still.running hprogram with rfl | ⟨u, hissue, hport⟩
  · cases hkey : t.keyPressed k with
    | true =>
      refine ⟨t.waiting t.wait t.schedule, ?_, .inl ⟨⟨hat.waiting _ _, hw⟩, by simp⟩⟩
      rw [hat.still.issue_cycle, exec_ldVxK_of_held (s := t.fetched t.schedule) x hw hkey, BitVec.add_sub_cancel]
    | false =>
      refine ⟨_, hat.still.issue_cycle.trans (exec_ldVxK_of_released (s := t.fetched t.schedule) x hw hkey),
        .inr ⟨?_, rfl, toNat_reg_setReg_key _ x k, hat.still.running, fun r hr => ?_⟩⟩
      · exact congrArg (· + 2) hat.pc
      · exact (State.reg_setReg_ne _ _ hr).trans (State.reg_congr hat.v r)
  · refine ⟨u, hissue, .inl ⟨⟨hat.port hport, hport.wait.trans hw⟩, ?_⟩⟩
    rintro ⟨rfl, -⟩
    cases hport

theorem reaches_awaitsRelease (hwaits : s.AwaitsPress x s) (hprogram : LeavesProgram h)
    (hkeys : DeliversKeys h s.keyPressed) : Reaches h s fun t => ∃ k, s.AwaitsRelease x k t := by
  have hfair (m : Nat) : ∃ m', m ≤ m' ∧ h m' = some .cycle ∧ ∃ k, keyLevel h s.keyPressed k m' = true := by
    obtain ⟨m', k, hle, hcycle, hlevel⟩ := hkeys.pressed m
    exact ⟨m', hle, hcycle, k, hlevel⟩
  refine Reaches.leadsTo (fun m t hrun ht => ?_) ⟨0, s, rfl, hwaits⟩ hfair
  simpa only [keyLevel_of_hostRun _ hrun] using ht.moment (hprogram m)

theorem reaches_hasTakenKey (hwaits : Reaches h s (s.AwaitsRelease x k)) (hprogram : LeavesProgram h)
    (hkeys : DeliversKeys h s.keyPressed) : Reaches h s (s.HasTakenKey x k) := by
  refine hwaits.leadsTo (fun m t hrun ht => ?_) fun m => hkeys.released m k
  simpa only [keyLevel_of_hostRun _ hrun] using ht.moment (hprogram m)

/-- A key is remembered at the start, or a press brings one to be remembered; its release ends the wait (R232, R292). -/
theorem exists_reaches_hasTakenKey (hat : s.At (.ldVxK x)) (hprogram : LeavesProgram h)
    (hkeys : DeliversKeys h s.keyPressed) : ∃ k, Reaches h s (s.HasTakenKey x k) := by
  have hrelease : Reaches h s fun t => ∃ k, s.AwaitsRelease x k t := by
    cases hw : s.wait with
    | running => exact reaches_awaitsRelease ⟨hat.waitsAt_self, .inl hw⟩ hprogram hkeys
    | awaitingKeyPress => exact reaches_awaitsRelease ⟨hat.waitsAt_self, .inr hw⟩ hprogram hkeys
    | awaitingKeyRelease k => exact ⟨0, s, rfl, k, hat.waitsAt_self, hw⟩
  obtain ⟨m, t, hrun, k, ht⟩ := hrelease
  exact ⟨k, reaches_hasTakenKey ⟨m, t, hrun, ht⟩ hprogram hkeys⟩

/-- Without a press no cycle finds a key. -/
theorem State.AwaitsPress.noPress_moment (hwaits : s.AwaitsPress x t) (hkeys : ∀ k, t.keyPressed k = false)
    (hprogram : o ≠ some .reset ∧ ∀ rom, o ≠ some (.load rom)) (hpress : ∀ k, o ≠ some (.setKey k true)) :
    ∃ u, issue o t = .next u ∧ s.AwaitsPress x u ∧ ∀ k, u.keyPressed k = false := by
  rcases issue_cases hwaits.1.still.running hprogram with rfl | ⟨u, hissue, hport⟩
  · exact ⟨_, hwaits.issue_noKey hkeys, ⟨hwaits.1.waiting _ _, .inr rfl⟩, hkeys⟩
  · exact ⟨u, hissue, hwaits.port hport, hport.keysReleased hpress hkeys⟩

theorem State.wait_of_noKeyRemembered (hnone : ∀ k, s.wait ≠ .awaitingKeyRelease k) :
    s.wait = .running ∨ s.wait = .awaitingKeyPress := by
  cases hw : s.wait with
  | running => exact .inl rfl
  | awaitingKeyPress => exact .inr rfl
  | awaitingKeyRelease k => exact absurd hw (hnone k)

end Sys2Proof.Machine

open Sys2Proof Sys2Proof.Machine

/-- Settles O58: the step is the cycle of the jump, which returns to where it was fetched. -/
theorem selfJumpStays : Obligations.SelfJumpStays := by
  intro s e hrun hnext hjump
  have hjump' : State.atSelfJump { s with schedule := s.schedule.tail } e := hjump
  exact ⟨(step_of_nextIsCycle hrun hnext).trans hjump'.cycle_eq, hjump⟩

/-- Settles O59: each wait has two parts (a tick and then a cycle, a press and then a release), and each part ends at a
moment that the host owes. -/
theorem hostDutiesEndWaits : Obligations.HostDutiesEndWaits := by
  refine ⟨fun h s x y n hprogram hticks hcycles hat hbacked => ?_, fun h s x hprogram _ hkeys hat => ?_⟩
  · obtain ⟨m, t, hrun, hopen | hdrawn⟩ := reaches_mayDraw hat hbacked hprogram hticks
    · exact reaches_hasDrawn ⟨m, t, hrun, hopen⟩ hbacked hprogram hcycles
    · exact ⟨m, t, hrun, hdrawn⟩
  · obtain ⟨k, m, t, hrun, htaken⟩ := exists_reaches_hasTakenKey hat hprogram hkeys
    exact ⟨m, t, k, hrun, htaken⟩

/-- Settles O60: in each part the wait is kept by every moment that the host issues. -/
theorem waitsGoOnWithoutDuties : Obligations.WaitsGoOnWithoutDuties := by
  refine ⟨fun h s x y n hprogram htick hat hlocked m => ?_, fun h s x hprogram hpress hat hkeys hnone m => ?_,
    fun h s hprogram hcycle hrun => ?_⟩
  · obtain ⟨t, hrun, hwaits, hlocked'⟩ := hostRun_keeps
      (P := fun t => s.WaitsAt (.drw x y n) t ∧ t.vblank = true) ⟨hat.waitsAt_self, hlocked⟩
      (fun m t ht => ht.1.locked_moment ht.2 (hprogram m) (htick m)) m
    exact ⟨t, hrun, hwaits.still, hwaits.pc, hlocked', hwaits.v⟩
  · obtain ⟨t, hrun, ⟨hwaits, -⟩, -⟩ := hostRun_keeps
      (P := fun t => s.AwaitsPress x t ∧ ∀ k, t.keyPressed k = false)
      ⟨⟨hat.waitsAt_self, State.wait_of_noKeyRemembered hnone⟩, hkeys⟩
      (fun m t ht => ht.1.noPress_moment ht.2 (hprogram m) (hpress m)) m
    exact ⟨t, hrun, hwaits.still, hwaits.pc, hwaits.v⟩
  · refine hostRun_keeps (P := s.PortsOnly) rfl fun m t hports => ?_
    rcases issue_cases (hports.halted.trans hrun) (hprogram m) with hm | ⟨u, hissue, hport⟩
    · exact absurd hm (hcycle m)
    · exact ⟨u, hissue, hports.trans hport.portsOnly⟩
end
